-- ==== Sys2Proof/Word.lean ====
section
/-! DEFINITION. The widths of the machine: bytes, 16-bit words, 12-bit addresses, register numbers
(00_scope.md R8, R10, R11). Every value is unsigned. -/
namespace Sys2Proof

/-- One byte: a V register, a memory cell, a timer (R8, R11). -/
abbrev Byte := BitVec 8

/-- A 16-bit word: PC, I, a stack entry, an opcode (R8, R70). -/
abbrev Word := BitVec 16

/-- A 12-bit address 0x000..0xFFF (R8 ADDR_BITS, R50). -/
abbrev Addr := BitVec 12

/-- A 4-bit field: a register number (X or Y), a key index, a row count N (R10, R20, R30). -/
abbrev Nibble := BitVec 4

/-- The framebuffer: 32 rows of 64 one-bit pixels. Pixel (x, y), at the spec's linear index `x + y * 64`
(R33), is bit x of row y. -/
abbrev Framebuffer := Vector (BitVec 64) 32

/-- The number of VF, the flag register (R21). -/
abbrev regF : Nibble := 0xF#4

end Sys2Proof
end

