-- ==== Sys2Proof/Syntax.lean ====
section
/-! DEFINITION. The instructions: one constructor per row of spec/opcode_table.json, in the table's
order (30_encoding.md R75). Each operand is a field of the opcode at its exact width (R10, R71), so
that a register number is 0..15 and an address 0x000..0xFFF by construction (10_state.md R20). -/
namespace Sys2Proof

/-- The 34 instructions of 30_encoding.md R75. An unrecognized word (R76) is none of them: the decoder
rejects it, and the step runs it as the no-op of R77. -/
inductive Instr where
  /-- 00E0, CLS (R102). -/
  | cls
  /-- 00EE, RET (R120). -/
  | ret
  /-- 1NNN, JP NNN (R121). -/
  | jp (nnn : Addr)
  /-- 2NNN, CALL NNN (R122). -/
  | call (nnn : Addr)
  /-- 3XNN, SE Vx, NN (R141). -/
  | seImm (x : Nibble) (nn : Byte)
  /-- 4XNN, SNE Vx, NN (R142). -/
  | sneImm (x : Nibble) (nn : Byte)
  /-- 5XY0, SE Vx, Vy (R143). -/
  | seReg (x y : Nibble)
  /-- 6XNN, LD Vx, NN (R162). -/
  | ldImm (x : Nibble) (nn : Byte)
  /-- 7XNN, ADD Vx, NN (R163). -/
  | addImm (x : Nibble) (nn : Byte)
  /-- 8XY0, LD Vx, Vy (R164). -/
  | ldReg (x y : Nibble)
  /-- 8XY1, OR Vx, Vy (R165). -/
  | orReg (x y : Nibble)
  /-- 8XY2, AND Vx, Vy (R166). -/
  | andReg (x y : Nibble)
  /-- 8XY3, XOR Vx, Vy (R167). -/
  | xorReg (x y : Nibble)
  /-- 8XY4, ADD Vx, Vy (R168). -/
  | addReg (x y : Nibble)
  /-- 8XY5, SUB Vx, Vy (R169). -/
  | sub (x y : Nibble)
  /-- 8XY6, SHR Vx (R170). The field Y is don't-care (R72): kept here, read by no meaning. -/
  | shr (x y : Nibble)
  /-- 8XY7, SUBN Vx, Vy (R171). -/
  | subn (x y : Nibble)
  /-- 8XYE, SHL Vx (R172). The field Y is don't-care (R72): kept here, read by no meaning. -/
  | shl (x y : Nibble)
  /-- 9XY0, SNE Vx, Vy (R144). -/
  | sneReg (x y : Nibble)
  /-- ANNN, LD I, NNN (R200). -/
  | ldI (nnn : Addr)
  /-- BNNN, JP V0, NNN (R123). -/
  | jpV0 (nnn : Addr)
  /-- CXNN, RND Vx, NN (R180). -/
  | rnd (x : Nibble) (nn : Byte)
  /-- DXYN, DRW Vx, Vy, N (R103). -/
  | drw (x y n : Nibble)
  /-- EX9E, SKP Vx (R231). -/
  | skp (x : Nibble)
  /-- EXA1, SKNP Vx (R232). -/
  | sknp (x : Nibble)
  /-- FX07, LD Vx, DT (R233). -/
  | ldVxDt (x : Nibble)
  /-- FX0A, LD Vx, K (R234). -/
  | ldVxK (x : Nibble)
  /-- FX15, LD DT, Vx (R238). -/
  | ldDtVx (x : Nibble)
  /-- FX18, LD ST, Vx (R239). -/
  | ldStVx (x : Nibble)
  /-- FX1E, ADD I, Vx (R201). -/
  | addI (x : Nibble)
  /-- FX29, LD F, Vx (R202). -/
  | ldF (x : Nibble)
  /-- FX33, LD B, Vx (R203). -/
  | ldB (x : Nibble)
  /-- FX55, LD [I], Vx (R204). -/
  | ldMemVx (x : Nibble)
  /-- FX65, LD Vx, [I] (R205). -/
  | ldVxMem (x : Nibble)
deriving DecidableEq, Repr

end Sys2Proof
end

