-- ==== Sys2Proof/WellFormed.lean ====
section
/-! DEFINITION. Well-formedness. The operands of Instr have the exact width of their fields, so no
ill-formed Instr can be written; what can be ill-formed is a WORD. `opcodeTable` is the map of
30_encoding.md R75 as masks and matches, `recognized` the check that a word is an instruction at all,
and `discriminated` the same check said by the discriminators of R74, family by family. -/
namespace Sys2Proof

/-- A row of the opcode map: the fixed bits of a pattern and the values they have (R75). -/
structure OpcodeRow where
  mask : Word
  value : Word
deriving DecidableEq, Repr

/-- The word has the row's fixed bits. -/
def OpcodeRow.matches (r : OpcodeRow) (w : Word) : Bool := w &&& r.mask == r.value

/-- R75, families 0x0 to 0x7. -/
def opcodeRowsLow : List OpcodeRow :=
  [⟨0xFFFF#16, 0x00E0#16⟩, ⟨0xFFFF#16, 0x00EE#16⟩, ⟨0xF000#16, 0x1000#16⟩, ⟨0xF000#16, 0x2000#16⟩,
   ⟨0xF000#16, 0x3000#16⟩, ⟨0xF000#16, 0x4000#16⟩, ⟨0xF00F#16, 0x5000#16⟩, ⟨0xF000#16, 0x6000#16⟩,
   ⟨0xF000#16, 0x7000#16⟩]

/-- R75, family 0x8. -/
def opcodeRowsAlu : List OpcodeRow :=
  [⟨0xF00F#16, 0x8000#16⟩, ⟨0xF00F#16, 0x8001#16⟩, ⟨0xF00F#16, 0x8002#16⟩, ⟨0xF00F#16, 0x8003#16⟩,
   ⟨0xF00F#16, 0x8004#16⟩, ⟨0xF00F#16, 0x8005#16⟩, ⟨0xF00F#16, 0x8006#16⟩, ⟨0xF00F#16, 0x8007#16⟩,
   ⟨0xF00F#16, 0x800E#16⟩]

/-- R75, families 0x9 to 0xF. -/
def opcodeRowsHigh : List OpcodeRow :=
  [⟨0xF00F#16, 0x9000#16⟩, ⟨0xF000#16, 0xA000#16⟩, ⟨0xF000#16, 0xB000#16⟩, ⟨0xF000#16, 0xC000#16⟩,
   ⟨0xF000#16, 0xD000#16⟩, ⟨0xF0FF#16, 0xE09E#16⟩, ⟨0xF0FF#16, 0xE0A1#16⟩, ⟨0xF0FF#16, 0xF007#16⟩,
   ⟨0xF0FF#16, 0xF00A#16⟩, ⟨0xF0FF#16, 0xF015#16⟩, ⟨0xF0FF#16, 0xF018#16⟩, ⟨0xF0FF#16, 0xF01E#16⟩,
   ⟨0xF0FF#16, 0xF029#16⟩, ⟨0xF0FF#16, 0xF033#16⟩, ⟨0xF0FF#16, 0xF055#16⟩, ⟨0xF0FF#16, 0xF065#16⟩]

/-- The opcode map of R75, 34 rows. -/
def opcodeTable : List OpcodeRow := opcodeRowsLow ++ opcodeRowsAlu ++ opcodeRowsHigh

/-- The word is one of the 34 instructions: some row matches it (R74, R75). -/
def recognized (w : Word) : Bool := opcodeTable.any (fun r => r.matches w)

/-- Two rows that no word matches together: they differ in a bit that both fix (R75). -/
def OpcodeRow.disjoint (r q : OpcodeRow) : Bool := (r.value ^^^ q.value) &&& (r.mask &&& q.mask) != 0#16

/-- The family op[15:12] of a word (R10). -/
def familyOf (w : Word) : Nibble := w.extractLsb' 12 4

/-- The low nibble N = op[3:0] (R10). -/
def lowNibbleOf (w : Word) : Nibble := w.extractLsb' 0 4

/-- The low byte NN = op[7:0] (R10). -/
def lowByteOf (w : Word) : Byte := w.extractLsb' 0 8

/-- The low nibbles that family 0x8 recognizes (R74). -/
def aluFunctions : List Nibble := [0, 1, 2, 3, 4, 5, 6, 7, 0xE]

/-- The low bytes that family 0xF recognizes (R74). -/
def miscFunctions : List Byte := [0x07, 0x0A, 0x15, 0x18, 0x1E, 0x29, 0x33, 0x55, 0x65]

/-- The word is recognized, said by the discriminators of R74: families 0x0, 0x5, 0x8, 0x9, 0xE and
0xF check more than the family nibble, every other family recognizes all its words (R76). -/
def discriminated (w : Word) : Bool :=
  match (familyOf w).toNat with
  | 0x0 => w == 0x00E0#16 || w == 0x00EE#16
  | 0x5 => lowNibbleOf w == 0#4
  | 0x8 => aluFunctions.contains (lowNibbleOf w)
  | 0x9 => lowNibbleOf w == 0#4
  | 0xE => lowByteOf w == 0x9E#8 || lowByteOf w == 0xA1#8
  | 0xF => miscFunctions.contains (lowByteOf w)
  | _ => true

end Sys2Proof
end

