-- ==== Sys2Proof/Decode.lean ====
section
/-! DEFINITION. The decoder and, after it, the encoder (30_encoding.md R70 to R77). Decoding is total:
each word is one of the 34 instructions or is rejected by name as unrecognized. -/
namespace Sys2Proof

/-- Why a word is no instruction (R76). -/
inductive DecodeError where
  /-- The word matches no row of R75. -/
  | unrecognized (w : Word)
deriving DecidableEq, Repr

/-- The family op[15:12] (R10). -/
def fieldFamily (w : Word) : Nibble := w.extractLsb' 12 4

/-- The field X = op[11:8] (R10). -/
def fieldX (w : Word) : Nibble := w.extractLsb' 8 4

/-- The field Y = op[7:4] (R10). -/
def fieldY (w : Word) : Nibble := w.extractLsb' 4 4

/-- The field N = op[3:0] (R10). -/
def fieldN (w : Word) : Nibble := w.extractLsb' 0 4

/-- The field NN = op[7:0] (R10). -/
def fieldNN (w : Word) : Byte := w.extractLsb' 0 8

/-- The field NNN = op[11:0] (R10). -/
def fieldNNN (w : Word) : Addr := w.extractLsb' 0 12

/-- Family 0x0: the whole word decides (R74). -/
def decodeFamily0 (w : Word) : Except DecodeError Instr :=
  if w = 0x00E0#16 then .ok .cls
  else if w = 0x00EE#16 then .ok .ret
  else .error (.unrecognized w)

/-- Family 0x5: N must be 0 (R74, C4). -/
def decodeFamily5 (w : Word) : Except DecodeError Instr :=
  if fieldN w = 0#4 then .ok (.seReg (fieldX w) (fieldY w)) else .error (.unrecognized w)

/-- Family 0x8: N is the ALU function (R74). -/
def decodeFamily8 (w : Word) : Except DecodeError Instr :=
  match (fieldN w).toNat with
  | 0x0 => .ok (.ldReg (fieldX w) (fieldY w))
  | 0x1 => .ok (.orReg (fieldX w) (fieldY w))
  | 0x2 => .ok (.andReg (fieldX w) (fieldY w))
  | 0x3 => .ok (.xorReg (fieldX w) (fieldY w))
  | 0x4 => .ok (.addReg (fieldX w) (fieldY w))
  | 0x5 => .ok (.sub (fieldX w) (fieldY w))
  | 0x6 => .ok (.shr (fieldX w) (fieldY w))
  | 0x7 => .ok (.subn (fieldX w) (fieldY w))
  | 0xE => .ok (.shl (fieldX w) (fieldY w))
  | _ => .error (.unrecognized w)

/-- Family 0x9: N must be 0 (R74, C4). -/
def decodeFamily9 (w : Word) : Except DecodeError Instr :=
  if fieldN w = 0#4 then .ok (.sneReg (fieldX w) (fieldY w)) else .error (.unrecognized w)

/-- Family 0xE: the low byte decides (R74). -/
def decodeFamilyE (w : Word) : Except DecodeError Instr :=
  if fieldNN w = 0x9E#8 then .ok (.skp (fieldX w))
  else if fieldNN w = 0xA1#8 then .ok (.sknp (fieldX w))
  else .error (.unrecognized w)

/-- Family 0xF: the low byte decides (R74). -/
def decodeFamilyF (w : Word) : Except DecodeError Instr :=
  if fieldNN w = 0x07#8 then .ok (.ldVxDt (fieldX w))
  else if fieldNN w = 0x0A#8 then .ok (.ldVxK (fieldX w))
  else if fieldNN w = 0x15#8 then .ok (.ldDtVx (fieldX w))
  else if fieldNN w = 0x18#8 then .ok (.ldStVx (fieldX w))
  else if fieldNN w = 0x1E#8 then .ok (.addI (fieldX w))
  else if fieldNN w = 0x29#8 then .ok (.ldF (fieldX w))
  else if fieldNN w = 0x33#8 then .ok (.ldB (fieldX w))
  else if fieldNN w = 0x55#8 then .ok (.ldMemVx (fieldX w))
  else if fieldNN w = 0x65#8 then .ok (.ldVxMem (fieldX w))
  else .error (.unrecognized w)

/-- The decoder: by the most significant nibble, then by the discriminators of R74. -/
def decode (w : Word) : Except DecodeError Instr :=
  match (fieldFamily w).toNat with
  | 0x0 => decodeFamily0 w
  | 0x1 => .ok (.jp (fieldNNN w))
  | 0x2 => .ok (.call (fieldNNN w))
  | 0x3 => .ok (.seImm (fieldX w) (fieldNN w))
  | 0x4 => .ok (.sneImm (fieldX w) (fieldNN w))
  | 0x5 => decodeFamily5 w
  | 0x6 => .ok (.ldImm (fieldX w) (fieldNN w))
  | 0x7 => .ok (.addImm (fieldX w) (fieldNN w))
  | 0x8 => decodeFamily8 w
  | 0x9 => decodeFamily9 w
  | 0xA => .ok (.ldI (fieldNNN w))
  | 0xB => .ok (.jpV0 (fieldNNN w))
  | 0xC => .ok (.rnd (fieldX w) (fieldNN w))
  | 0xD => .ok (.drw (fieldX w) (fieldY w) (fieldN w))
  | 0xE => decodeFamilyE w
  | _ => decodeFamilyF w

/-- The opcode of two consecutive bytes, big-endian: the byte at the lower address holds op[15:8]
(20_memory.md R58). -/
def opcodeOf (first second : Byte) : Word := first ++ second

/-- Decode the two bytes of an instruction in address order. -/
def decodeBytes (first second : Byte) : Except DecodeError Instr := decode (opcodeOf first second)

/-- The encoder: the opcode of an instruction, from the formats of R72 and the map of R75. -/
def encode : Instr → Word
  | .cls => 0x00E0#16
  | .ret => 0x00EE#16
  | .jp nnn => 0x1#4 ++ nnn
  | .call nnn => 0x2#4 ++ nnn
  | .seImm x nn => 0x3#4 ++ x ++ nn
  | .sneImm x nn => 0x4#4 ++ x ++ nn
  | .seReg x y => 0x5#4 ++ x ++ y ++ 0x0#4
  | .ldImm x nn => 0x6#4 ++ x ++ nn
  | .addImm x nn => 0x7#4 ++ x ++ nn
  | .ldReg x y => 0x8#4 ++ x ++ y ++ 0x0#4
  | .orReg x y => 0x8#4 ++ x ++ y ++ 0x1#4
  | .andReg x y => 0x8#4 ++ x ++ y ++ 0x2#4
  | .xorReg x y => 0x8#4 ++ x ++ y ++ 0x3#4
  | .addReg x y => 0x8#4 ++ x ++ y ++ 0x4#4
  | .sub x y => 0x8#4 ++ x ++ y ++ 0x5#4
  | .shr x y => 0x8#4 ++ x ++ y ++ 0x6#4
  | .subn x y => 0x8#4 ++ x ++ y ++ 0x7#4
  | .shl x y => 0x8#4 ++ x ++ y ++ 0xE#4
  | .sneReg x y => 0x9#4 ++ x ++ y ++ 0x0#4
  | .ldI nnn => 0xA#4 ++ nnn
  | .jpV0 nnn => 0xB#4 ++ nnn
  | .rnd x nn => 0xC#4 ++ x ++ nn
  | .drw x y n => 0xD#4 ++ x ++ y ++ n
  | .skp x => 0xE#4 ++ x ++ 0x9E#8
  | .sknp x => 0xE#4 ++ x ++ 0xA1#8
  | .ldVxDt x => 0xF#4 ++ x ++ 0x07#8
  | .ldVxK x => 0xF#4 ++ x ++ 0x0A#8
  | .ldDtVx x => 0xF#4 ++ x ++ 0x15#8
  | .ldStVx x => 0xF#4 ++ x ++ 0x18#8
  | .addI x => 0xF#4 ++ x ++ 0x1E#8
  | .ldF x => 0xF#4 ++ x ++ 0x29#8
  | .ldB x => 0xF#4 ++ x ++ 0x33#8
  | .ldMemVx x => 0xF#4 ++ x ++ 0x55#8
  | .ldVxMem x => 0xF#4 ++ x ++ 0x65#8

/-- The opcode that `nbits` bits `w`, numbered as spec/opcode_table.json numbers them, give: bit 0 is
the least significant bit of the one word an instruction has (R70), and a bit above `nbits` is 0. -/
def tableWord (nbits w : Nat) : Word := BitVec.ofNat 16 (w % 2 ^ nbits)

/-- The two bytes of the opcode `w` in address order, big-endian (R58). -/
def bytesOf (w : Word) : Byte × Byte := (w.extractLsb' 8 8, w.extractLsb' 0 8)

/-- The two bytes of an instruction in address order (R58). -/
def encodeBytes (i : Instr) : Byte × Byte := bytesOf (encode i)

/-- What the decoder reads from an instruction whose bits are `w` (see `tableWord`): its bytes laid
out big-endian (R58) and decoded; none where the decoder rejects them. -/
def decodeTableWord (nbits w : Nat) : Option Instr :=
  match decodeBytes (bytesOf (tableWord nbits w)).1 (bytesOf (tableWord nbits w)).2 with
  | .ok i => some i
  | .error _ => none

end Sys2Proof
end

