-- ==== Sys2Proof/Config.lean ====
section
/-! DEFINITION. What an implementation fixes and the source leaves open (00_scope.md R9), and the
free values. The three parameters are plain data, carried in the field `cfg` of State, so that every
statement about all states holds for every value of them (logs 2 to 5); the random bytes are an opaque
constant without a body (log 6). -/
namespace Sys2Proof

/-- VF_ORDER: the order of the two writes of a flag-writing ALU instruction (43_alu.md R160, D4). -/
inductive VfOrder where
  /-- VF first, then V[X]: with X = F, VF ends holding the result. -/
  | resultLast
  /-- V[X] first, then VF: with X = F, VF ends holding the flag. -/
  | flagLast
deriving DecidableEq, Repr

/-- KEY_OOR: what a key index of 16 or more selects (45_timer_input.md R230, D5). -/
inductive KeyOor where
  /-- No key: not pressed. -/
  | notPressed
  /-- The key its low nibble names. -/
  | lowNibble
deriving DecidableEq, Repr

/-- The number of font bytes: 16 glyphs × 5 bytes (20_memory.md R51). -/
abbrev fontSize : Nat := 80

/-- The parameters of 00_scope.md R9 that are not the oracle. -/
structure Config where
  /-- FONT: the bytes at 0x000..0x04F (20_memory.md R52). -/
  font : Vector Byte fontSize
  /-- VF_ORDER (43_alu.md R160). -/
  vfOrder : VfOrder
  /-- KEY_OOR (45_timer_input.md R230). -/
  keyOor : KeyOor
deriving DecidableEq, Repr

/-- RNG: the byte of the n-th draw of the random oracle (43_alu.md R182, D10). A free value: it has no
body, nothing can be proved about it, so a claim holds for every sequence of draws (log 6). -/
opaque Config.randomByte : Nat → Byte

end Sys2Proof
end

