-- ==== Sys2Proof/Machine/Memory.lean ====
section
/-! DEFINITION. Memory as a list of (address, byte) pairs (20_memory.md R50): one entry for each byte
that differs from what an unlisted address reads as, addresses rising. -/
namespace Sys2Proof.Machine

/-- The size of memory: addresses 0x000..0xFFF (R8, R50). -/
abbrev memSize : Nat := 4096

/-- What an unlisted address reads as: the contents after `construct()`, FONT at 0x000..0x04F and 0 above
(R67). -/
def Memory.blank (font : Vector Byte fontSize) (a : Nat) : Byte :=
  if h : a < fontSize then font[a] else 0#8

/-- The byte at an address; `d` is what an unlisted address reads as. -/
def Memory.read (d : Nat → Byte) (m : List Host.Cell) (a : Nat) : Byte :=
  match m with
  | [] => d a
  | c :: rest => if c.1 = a then c.2 else Memory.read d rest a

/-- Put an entry before the first one with a higher address. -/
def Memory.insert (a : Nat) (b : Byte) (m : List Host.Cell) : List Host.Cell :=
  match m with
  | [] => [(a, b)]
  | c :: rest => if a < c.1 then (a, b) :: c :: rest else c :: Memory.insert a b rest

/-- Remove the entry of an address. -/
def Memory.erase (a : Nat) (m : List Host.Cell) : List Host.Cell := m.filter (fun c => c.1 != a)

/-- Write a byte. Writing what an unlisted address reads as removes the entry, so that equal memories
are equal lists. -/
def Memory.write (d : Nat → Byte) (m : List Host.Cell) (a : Nat) (b : Byte) : List Host.Cell :=
  if b = d a then Memory.erase a m else Memory.insert a b (Memory.erase a m)

/-- Remove the entries of addresses below `n`: those bytes read as after `construct()` again (R301: "restores
font"). -/
def Memory.restoreBelow (n : Nat) (m : List Host.Cell) : List Host.Cell := m.filter (fun c => n ≤ c.1)

/-- The canonical form: addresses strictly rising, inside memory, and no entry equal to what its address
reads as unlisted. -/
abbrev Memory.wf (d : Nat → Byte) (m : List Host.Cell) : Prop :=
  m.Pairwise (fun c e => c.1 < e.1) ∧ ∀ c ∈ m, c.1 < memSize ∧ c.2 ≠ d c.1

end Sys2Proof.Machine
end

