-- ==== Sys2Proof/Machine/Parameters.lean ====
section
/-! DEFINITION. The defaults this spec takes for the parameters of 00_scope.md R9. The source states
none of them (logs 2 to 5); no statement rests on them: State carries the parameters as the field `cfg`,
and a statement about all states holds for all their values. -/
namespace Sys2Proof.Machine

/-- Glyphs 0 to 7 of the default FONT (20_memory.md R52). PRESUMED: from general knowledge, not in
source (K1, log 3). -/
def defaultGlyphsLow : Vector Byte 40 :=
  #v[0xF0, 0x90, 0x90, 0x90, 0xF0,
     0x20, 0x60, 0x20, 0x20, 0x70,
     0xF0, 0x10, 0xF0, 0x80, 0xF0,
     0xF0, 0x10, 0xF0, 0x10, 0xF0,
     0x90, 0x90, 0xF0, 0x10, 0x10,
     0xF0, 0x80, 0xF0, 0x10, 0xF0,
     0xF0, 0x80, 0xF0, 0x90, 0xF0,
     0xF0, 0x10, 0x20, 0x40, 0x40]

/-- Glyphs 8 to F of the default FONT (20_memory.md R52). PRESUMED, as `defaultGlyphsLow`. -/
def defaultGlyphsHigh : Vector Byte 40 :=
  #v[0xF0, 0x90, 0xF0, 0x90, 0xF0,
     0xF0, 0x90, 0xF0, 0x10, 0xF0,
     0xF0, 0x90, 0xF0, 0x90, 0x90,
     0xE0, 0x90, 0xE0, 0x90, 0xE0,
     0xF0, 0x80, 0x80, 0x80, 0xF0,
     0xE0, 0x90, 0x90, 0x90, 0xE0,
     0xF0, 0x80, 0xF0, 0x80, 0xF0,
     0xF0, 0x80, 0xF0, 0x80, 0x80]

/-- The default of FONT (R52, D11). -/
def defaultFont : Vector Byte fontSize := defaultGlyphsLow ++ defaultGlyphsHigh

/-- The default of VF_ORDER: ResultLast (R9, D4). DESIGN CHOICE (log 4). -/
def defaultVfOrder : VfOrder := .resultLast

/-- The default of KEY_OOR: NotPressed (R9, D5). DESIGN CHOICE (log 5). -/
def defaultKeyOor : KeyOor := .notPressed

/-- The parameters a state after `State.reset` carries (R9). -/
def defaultConfig : Config := { font := defaultFont, vfOrder := defaultVfOrder, keyOor := defaultKeyOor }

end Sys2Proof.Machine
end

