-- ==== Sys2Proof/Machine/State.lean ====
section
/-! DEFINITION. The state of the core, as plain data (10_state.md R20 to R38), the reasons a step can
stop, and the state after reset (R40, 70_reset_and_hazards.md R300). -/
namespace Sys2Proof.Machine

/-- The fatal errors, each with the PC it was raised at (60_exceptions.md R260, D29). -/
inductive FatalError where
  /-- A step with PC + 1 > 0xFFF (R73). -/
  | fetchOutOfBounds (pc : Word)
  /-- `2NNN` with SP = 16 (R122). -/
  | stackOverflow (pc : Word)
  /-- `00EE` with SP = 0 (R120). -/
  | stackUnderflow (pc : Word)
deriving DecidableEq, Repr

/-- The run status (R35). -/
inductive Status where
  /-- Steps run. -/
  | running
  /-- A fatal error was raised; only `reset()` leaves this status (R264). -/
  | halted (e : FatalError)
deriving DecidableEq, Repr

/-- The reasons a step stops with a fault: none. The spec gives every error of the core an effect (R262:
a fatal error is a next state whose status is Halted; R77: an unrecognized word is a no-op), every
arithmetic result wraps, every data address is masked, and every word decodes (R260), so nothing raises
a fault (log 7). -/
inductive Fault where
deriving DecidableEq, Repr

/-- The reasons an operation has no meaning. -/
inductive Refusal where
  /-- An instruction the model gives no meaning. Raised by an arm of `exec` only; no arm does. Safe. -/
  | notModelled (mnemonic : String)
  /-- Raised by the host operation `setKey` with an index outside 0..15: "refused: no state changes, and
  it has no transition" (R280, D22). No step raises it. Safe. -/
  | keyIndexOutOfRange (index : Nat)
deriving DecidableEq, Repr

/-- The state of the core. The last two fields are the model's own (see their docstrings). -/
structure State where
  /-- V0 to VF (R20, R21). -/
  v : Vector Byte 16
  /-- I, the index register (R24). -/
  index : Word
  /-- PC (R22, R23). -/
  pc : Word
  /-- SP, the number of stack entries in use, 0..16 (R26). -/
  sp : Fin 17
  /-- The return addresses (R25). -/
  stack : Vector Word 16
  /-- DT, the delay timer (R27). -/
  dt : Byte
  /-- ST, the sound timer (R28). -/
  st : Byte
  /-- Time since the last tick, in units of 1/3 ms (R29). -/
  tAcc : Nat
  /-- The input latch: true is pressed (R30). -/
  key : Vector Bool 16
  /-- Blocked in a key wait (R31). -/
  awaitingKey : Bool
  /-- The register the key wait will write (R31). -/
  awaitReg : Nibble
  /-- The key press captured during the wait (R32). -/
  pendingKey : Option Nibble
  /-- The framebuffer (R33). -/
  fb : Framebuffer
  /-- The framebuffer changed since the host last consumed it (R34). -/
  dirty : Bool
  /-- Running or Halted(e) (R35). -/
  status : Status
  /-- Memory: the bytes that differ from what an unlisted address reads as (R50; `Memory.blank`). -/
  mem : List Host.Cell
  /-- The model's own: the parameters FONT, VF_ORDER and KEY_OOR (00_scope.md R9; not state by R36 (c)).
  Nothing changes it (log 2). -/
  cfg : Config
  /-- The model's own: how many bytes have been drawn from the oracle RNG (R182, log 6). -/
  draws : Nat
deriving DecidableEq, Repr

/-- The state after `construct()` (R300, R40) with the parameters `cfg`. Memory lists nothing: it holds
FONT at 0x000..0x04F and 0 above, which is what an unlisted address reads as (20_memory.md R67). -/
def State.construct (cfg : Config) (draws : Nat) : State where
  v := Vector.replicate 16 0#8
  index := 0#16
  pc := 0x200#16
  sp := 0
  stack := Vector.replicate 16 0#16
  dt := 0#8
  st := 0#8
  tAcc := 0
  key := Vector.replicate 16 false
  awaitingKey := false
  awaitReg := 0#4
  pendingKey := none
  fb := Vector.replicate 32 0#64
  dirty := false
  status := .running
  mem := []
  cfg := cfg
  draws := draws

/-- The machine right after reset: a freshly constructed one (R300, log 1), with the spec's default
parameters (R9, logs 2 to 5). -/
def State.reset : State := State.construct defaultConfig 0

end Sys2Proof.Machine
end

