-- ==== Sys2Proof/Machine/Ops.lean ====
section
/-! DEFINITION. The named operations over registers, memory, the stack, the framebuffer and the run
status. Every meaning reads and writes the state through them. -/
namespace Sys2Proof.Machine

/-! ## General registers, I and PC (10_state.md R20, R22, R24) -/

/-- Read V[x] (R12). -/
def State.getV (s : State) (x : Nibble) : Byte := s.v[x.toNat]'x.isLt

/-- Write V[x] (R12). -/
def State.setV (s : State) (x : Nibble) (b : Byte) : State := { s with v := s.v.set x.toNat b x.isLt }

/-- Write I (R24). -/
def State.setIndex (s : State) (w : Word) : State := { s with index := w }

/-- Write PC (R22). -/
def State.setPc (s : State) (w : Word) : State := { s with pc := w }

/-- The default fall-through, `PC <- PC + 2` (30_encoding.md R79). PC is 16 bits and not masked to 12
(D2, log 9). -/
def State.advance (s : State) : State := s.setPc (s.pc + 2#16)

/-- A conditional skip: `PC <- PC + 4` if taken, else `PC <- PC + 2` (42_skip.md R140). -/
def State.skipIf (s : State) (taken : Bool) : State :=
  s.setPc (if taken then s.pc + 4#16 else s.pc + 2#16)

/-! ## Memory (20_memory.md) -/

/-- What an unlisted address of this state's memory reads as (R67). -/
def State.blank (s : State) : Nat → Byte := Memory.blank s.cfg.font

/-- `MemRead(a, 1)`: no side effect (R12, R57). -/
def State.readByte (s : State) (a : Addr) : Byte := Memory.read s.blank s.mem a.toNat

/-- `MemWrite(a, 1, b)`: every address is writable, the font region among them (R12, R56, D14). -/
def State.writeByte (s : State) (a : Addr) (b : Byte) : State :=
  { s with mem := Memory.write s.blank s.mem a.toNat b }

/-- Write bytes at rising addresses from `a`; used by `load` (R302). -/
def State.writeBytes (s : State) (a : Addr) (bytes : List Byte) : State :=
  match bytes with
  | [] => s
  | b :: rest => (s.writeByte a b).writeBytes (a + 1#12) rest

/-! ## The return stack (10_state.md R25, R26) -/

/-- `stack[SP] <- w; SP <- SP + 1`, for SP below 16 (R122). -/
def State.push (s : State) (w : Word) (h : s.sp.val < 16) : State :=
  { s with stack := s.stack.set s.sp.val w h, sp := ⟨s.sp.val + 1, by omega⟩ }

/-- `SP <- SP - 1; PC <- stack[SP]`, for SP above 0 (R120). The entry keeps its value (R25, D28). -/
def State.popPc (s : State) (_h : s.sp.val ≠ 0) : State :=
  { s with pc := s.stack[s.sp.val - 1]'(by omega), sp := ⟨s.sp.val - 1, by omega⟩ }

/-! ## The framebuffer (40_display.md R100) -/

/-- Pixel (x, y): coordinates are taken modulo width and height, never out of bounds (R33, R100). -/
def pixel (fb : Framebuffer) (x y : Nat) : Bool :=
  (fb[y % 32]'(Nat.mod_lt y (by decide))).getLsbD (x % 64)

/-- What `clearFB()` leaves: every pixel 0 (R100). -/
def clearedFb : Framebuffer := Vector.replicate 32 0#64

/-- Pixel (x, y) toggled (R100: "pixels are XORed, not overwritten"). -/
def togglePixel (fb : Framebuffer) (x y : Nat) : Framebuffer :=
  fb.set (y % 32) (fb[y % 32]'(Nat.mod_lt y (by decide)) ^^^ BitVec.twoPow 64 (x % 64))
    (Nat.mod_lt y (by decide))

/-- `xorPixel(x, y)`: toggle the pixel; the Bool is "collided", a set pixel flipped to unset (R100). -/
def xorPixel (fb : Framebuffer) (x y : Nat) : Framebuffer × Bool :=
  (togglePixel fb x y, pixel fb x y)

/-- Column `c` of a sprite row at (x, y): bit 7 is the leftmost column (R101; PRESUMED by the spec, log 8).
A clear bit draws nothing. The Bool of `acc` is whether any pixel collided so far. -/
def drawColumn (row : Byte) (x y : Nat) (acc : Framebuffer × Bool) (c : Nat) : Framebuffer × Bool :=
  if row.getLsbD (7 - c) then
    ((xorPixel acc.1 (x + c) y).1, acc.2 || (xorPixel acc.1 (x + c) y).2)
  else acc

/-- The eight columns of one sprite row (R103). -/
def drawRow (row : Byte) (x y : Nat) (acc : Framebuffer × Bool) : Framebuffer × Bool :=
  (List.range 8).foldl (drawColumn row x y) acc

/-- The `n` rows of a sprite whose row r is `rows r`, at (x, y) (R103). -/
def drawSprite (rows : Nat → Byte) (n x y : Nat) (fb : Framebuffer) : Framebuffer × Bool :=
  (List.range n).foldl (fun acc r => drawRow (rows r) x (y + r) acc) (fb, false)

/-- Replace the framebuffer and mark it dirty, whether or not a pixel changed (R34). -/
def State.setFb (s : State) (fb : Framebuffer) : State := { s with fb := fb, dirty := true }

/-! ## Taking a fatal error, and leaving the halt (60_exceptions.md R262, R264) -/

/-- Raise fatal error `e`: every element of state keeps its value, except `status`, which becomes Halted(e)
(R262). There is no vector, no saved PC, no handler: control goes to the host. -/
def State.raise (s : State) (e : FatalError) : State := { s with status := .halted e }

/-- The host operation `reset()`, the only way out of Halted(e) (R301, R264, D21): registers, stack, timers
and key wait zeroed, the font restored, PC 0x200, status Running; the key latch, the framebuffer, `dirty` and
memory 0x050..0xFFF are kept. -/
def State.resetVm (s : State) : State :=
  { State.construct s.cfg s.draws with
    mem := Memory.restoreBelow fontSize s.mem
    key := s.key
    fb := s.fb
    dirty := s.dirty }

/-! ## The key wait (45_timer_input.md R230 to R237) -/

/-- Latch bit `k` (R30). -/
def State.keyBit (s : State) (k : Nibble) : Bool := s.key[k.toNat]'k.isLt

/-- Write latch bit `k` (R30). -/
def State.setKeyBit (s : State) (k : Nibble) (pressed : Bool) : State :=
  { s with key := s.key.set k.toNat pressed k.isLt }

/-- `keyPressed(v)`: the latch indexed with a byte; a byte of 16 or more follows KEY_OOR (R230, D5). -/
def State.keyPressed (s : State) (b : Byte) : Bool :=
  if b.toNat < 16 then s.keyBit (b.setWidth 4)
  else match s.cfg.keyOor with
    | .notPressed => false
    | .lowNibble => s.keyBit (b.setWidth 4)

/-- Enter the key wait for V[x] (R234). -/
def State.enterWait (s : State) (x : Nibble) : State :=
  { s with awaitingKey := true, awaitReg := x, pendingKey := none }

/-- Complete the key wait with key `k`: write V[awaitReg], consume the key, clear the wait; PC is not
changed and no instruction runs (R237, D8, D9). -/
def State.completeWait (s : State) (k : Nibble) : State :=
  { (s.setV s.awaitReg (k.setWidth 8)).setKeyBit k false with awaitingKey := false, pendingKey := none }

/-! ## The timers and the random oracle -/

/-- A tick of one counter: above 0 it is decremented by 1, at 0 it stays (60_exceptions.md R274). -/
def tickDown (t : Byte) : Byte := if t = 0#8 then 0#8 else t - 1#8

/-- `tick()`: both counters (R274). -/
def State.tick (s : State) : State := { s with dt := tickDown s.dt, st := tickDown s.st }

/-- The loop of `tickTimers` (R275): while tAcc > 50, tick and subtract 50. `fuel` bounds the rounds; tAcc
itself is always enough. -/
def State.tickLoop (s : State) (fuel : Nat) : State :=
  match fuel with
  | 0 => s
  | fuel + 1 => if 50 < s.tAcc then State.tickLoop { s.tick with tAcc := s.tAcc - 50 } fuel else s

/-- Draw one byte from the oracle RNG: the state's counter names the draw (43_alu.md R182, log 6). -/
def State.draw (s : State) : Byte × State := (Config.randomByte s.draws, { s with draws := s.draws + 1 })

end Sys2Proof.Machine
end

