-- ==== Sys2Proof/Machine/Cycle.lean ====
section
/-! DEFINITION. The parts of the step transaction around `exec` (30_encoding.md R73 to R81): fetch, decode, the
choice of what a step does in the order of 60_exceptions.md R265, the no-op of an unrecognized word, and the
placing of an opcode where the next step fetches it. -/
namespace Sys2Proof.Machine

/-- The fetch bound check passes: PC + 1 ≤ 0xFFF, computed without wrapping (R73). -/
def State.canFetch (s : State) : Bool := s.pc.toNat + 1 ≤ 0xFFF

/-- The opcode at PC: the bytes at PC and PC + 1, big-endian, read from memory as it stands at this step
(R58, R73, R65). Its addresses need no masking when `canFetch` holds. -/
def State.fetchWord (s : State) : Word :=
  opcodeOf (s.readByte (s.pc.setWidth 12)) (s.readByte (s.pc.setWidth 12 + 1#12))

/-- What one step does (R80). -/
inductive Action where
  /-- The core is halted: nothing (R266). -/
  | stayHalted (e : FatalError)
  /-- Blocked in a key wait with no key captured: nothing (R235). -/
  | blocked
  /-- Complete the key wait with key `k`: no fetch, no instruction (R237). -/
  | resume (k : Nibble)
  /-- The fetch is out of bounds: a fatal error (R73). -/
  | outOfBounds
  /-- The word at PC is no instruction: the no-op of R77. -/
  | unknown (op : Word)
  /-- Run the instruction at PC. -/
  | run (i : Instr)
deriving DecidableEq, Repr

/-- What a step that fetches does: the bound check, then decode (R265, checks 3 and 4). -/
def State.fetchAction (s : State) : Action :=
  if s.canFetch then
    match decode s.fetchWord with
    | .ok i => .run i
    | .error (.unrecognized w) => .unknown w
  else .outOfBounds

/-- The first check that applies decides what the step does (R265, R80). -/
def State.nextAction (s : State) : Action :=
  match s.status with
  | .halted e => .stayHalted e
  | .running =>
    if s.awaitingKey then
      match s.pendingKey with
      | none => .blocked
      | some k => .resume k
    else s.fetchAction

/-- An unrecognized word: a no-op that advances PC by 2 and changes nothing else (R77, C10). The result
UnknownOpcode is in `stepReport`. -/
def execUnknown (_op : Word) (s : State) : Host.Outcome State Fault Refusal := .next s.advance

/-- Store an opcode at PC, big-endian (R58). -/
def State.placeOpcode (s : State) (w : Word) : State :=
  (s.writeByte (s.pc.setWidth 12) (bytesOf w).1).writeByte (s.pc.setWidth 12 + 1#12) (bytesOf w).2

/-- A state whose next step fetches: status Running, no key wait, and a PC the bound check passes; a PC
beyond 0xFFE becomes 0x200, where programs are loaded (R53). Nothing else changes (log 25). -/
def State.readyToFetch (s : State) : State :=
  { s with
    status := .running
    awaitingKey := false
    pendingKey := if s.awaitingKey then none else s.pendingKey
    pc := if s.canFetch then s.pc else 0x200#16 }

end Sys2Proof.Machine
end

