-- ==== Sys2Proof/Machine/Flags.lean ====
section
/-! DEFINITION. VF as a flag: each flag's value, and the write of a result with its flag (43_alu.md R160,
R161, R181). -/
namespace Sys2Proof.Machine

/-- The carry of `8XY4`: the true sum exceeds 255 (R168). -/
def carry (a b : Byte) : Bool := 255 < a.toNat + b.toNat

/-- The no-borrow flag of `a - b`: a ≥ b (R169, R171). -/
def noBorrow (a b : Byte) : Bool := b.toNat ≤ a.toNat

/-- The bit `8XY6` shifts out: old bit 0 (R170). -/
def shiftedOutRight (a : Byte) : Bool := a.getLsbD 0

/-- The bit `8XYE` shifts out: old bit 7 (R172). -/
def shiftedOutLeft (a : Byte) : Bool := a.getLsbD 7

/-- The byte a flag is written as: 1 or 0, "never another value" (R161). -/
def flagByte (b : Bool) : Byte := if b then 1#8 else 0#8

/-- Write VF as a flag (R21). -/
def State.setFlag (s : State) (flag : Bool) : State := s.setV regF (flagByte flag)

/-- `writeFlagged(X, result, flag)`: the two writes in the order VF_ORDER (R160, D4). -/
def State.writeFlagged (s : State) (x : Nibble) (result : Byte) (flag : Bool) : State :=
  match s.cfg.vfOrder with
  | .resultLast => (s.setFlag flag).setV x result
  | .flagLast => (s.setV x result).setFlag flag

end Sys2Proof.Machine
end

