-- ==== Sys2Proof/Machine/Alu.lean ====
section
/-! DEFINITION. The ALU family: 6XNN, 7XNN, 8XY0 to 8XY7, 8XYE, CXNN (43_alu.md). Every operand is read
before any register is written (R160); byte arithmetic wraps modulo 256 (R161). -/
namespace Sys2Proof.Machine

/-- `6XNN`, LD Vx, NN (R162). -/
def execLdImm (x : Nibble) (nn : Byte) (s : State) : Host.Outcome State Fault Refusal :=
  .next (s.setV x nn).advance

/-- `7XNN`, ADD Vx, NN: wrapping, no flag (R163). -/
def execAddImm (x : Nibble) (nn : Byte) (s : State) : Host.Outcome State Fault Refusal :=
  .next (s.setV x (s.getV x + nn)).advance

/-- `8XY0`, LD Vx, Vy (R164). -/
def execLdReg (x y : Nibble) (s : State) : Host.Outcome State Fault Refusal :=
  .next (s.setV x (s.getV y)).advance

/-- `8XY1`, OR Vx, Vy: no flag (R165). -/
def execOrReg (x y : Nibble) (s : State) : Host.Outcome State Fault Refusal :=
  .next (s.setV x (s.getV x ||| s.getV y)).advance

/-- `8XY2`, AND Vx, Vy: no flag (R166). -/
def execAndReg (x y : Nibble) (s : State) : Host.Outcome State Fault Refusal :=
  .next (s.setV x (s.getV x &&& s.getV y)).advance

/-- `8XY3`, XOR Vx, Vy: no flag (R167). -/
def execXorReg (x y : Nibble) (s : State) : Host.Outcome State Fault Refusal :=
  .next (s.setV x (s.getV x ^^^ s.getV y)).advance

/-- `8XY4`, ADD Vx, Vy: VF = carry (R168). -/
def execAddReg (x y : Nibble) (s : State) : Host.Outcome State Fault Refusal :=
  .next (s.writeFlagged x (s.getV x + s.getV y) (carry (s.getV x) (s.getV y))).advance

/-- `8XY5`, SUB Vx, Vy: VF = no borrow (R169). -/
def execSub (x y : Nibble) (s : State) : Host.Outcome State Fault Refusal :=
  .next (s.writeFlagged x (s.getV x - s.getV y) (noBorrow (s.getV x) (s.getV y))).advance

/-- `8XY6`, SHR Vx: shifts V[X], not V[Y]; VF = the bit shifted out (R170). -/
def execShr (x _y : Nibble) (s : State) : Host.Outcome State Fault Refusal :=
  .next (s.writeFlagged x (s.getV x >>> 1) (shiftedOutRight (s.getV x))).advance

/-- `8XY7`, SUBN Vx, Vy: V[Y] - V[X]; VF = no borrow (R171). -/
def execSubn (x y : Nibble) (s : State) : Host.Outcome State Fault Refusal :=
  .next (s.writeFlagged x (s.getV y - s.getV x) (noBorrow (s.getV y) (s.getV x))).advance

/-- `8XYE`, SHL Vx: shifts V[X], not V[Y]; VF = the bit shifted out (R172). -/
def execShl (x _y : Nibble) (s : State) : Host.Outcome State Fault Refusal :=
  .next (s.writeFlagged x (s.getV x <<< 1) (shiftedOutLeft (s.getV x))).advance

/-- `CXNN`, RND Vx, NN: a draw of the oracle AND NN (R180, R182). -/
def execRnd (x : Nibble) (nn : Byte) (s : State) : Host.Outcome State Fault Refusal :=
  .next (s.draw.2.setV x (s.draw.1 &&& nn)).advance

end Sys2Proof.Machine
end

