-- ==== Sys2Proof/Machine/Operands.lean ====
section
/-! DEFINITION. The operand forms: the one addressing mode of data accesses, the jump targets, the
values written to I, the decimal digits, and the runs of registers that `FX55` and `FX65` move. -/
namespace Sys2Proof.Machine

/-- `mask12(a)` (00_scope.md R11). -/
def mask12 (w : Word) : Addr := w.setWidth 12

/-- The effective address `mask12(I + k)` of every data access: register-indirect through I, wrapping past
0xFFF to 0x000 (20_memory.md R55). -/
def State.dataAddr (s : State) (k : Nat) : Addr := mask12 (s.index + BitVec.ofNat 16 k)

/-- The target NNN of `1NNN`, `2NNN`, and the value `ANNN` writes: zero-extended (R71, R121, R122, R200). -/
def absolute (nnn : Addr) : Word := nnn.setWidth 16

/-- The target NNN + V0 of `BNNN`, not masked (41_control.md R123, D2). -/
def State.indexedTarget (s : State) (nnn : Addr) : Word := absolute nnn + (s.getV 0x0#4).setWidth 16

/-- `mask12(I + b)` as a value of I (44_index_memory.md R201). -/
def State.indexPlus (s : State) (b : Byte) : Word := (mask12 (s.index + b.setWidth 16)).setWidth 16

/-- The font glyph of a digit: 0x000 + b * 5, taken literally for b ≥ 16 too (R202, U9). -/
def glyphAddr (b : Byte) : Word := b.setWidth 16 * 5#16

/-- The hundreds digit, floor(b / 100) (R203). -/
def hundreds (b : Byte) : Byte := b / 100#8

/-- The tens digit, floor(b / 10) mod 10 (R203). -/
def tens (b : Byte) : Byte := b / 10#8 % 10#8

/-- The ones digit, b mod 10 (R203). -/
def ones (b : Byte) : Byte := b % 10#8

/-- Row `r` of the sprite at I (40_display.md R103). -/
def State.spriteRow (s : State) (r : Nat) : Byte := s.readByte (s.dataAddr r)

/-- Store V0 to V[x] at I, ascending (44_index_memory.md R204). -/
def State.storeRegs (s : State) (x : Nibble) : State :=
  (List.range (x.toNat + 1)).foldl (fun t k => t.writeByte (t.dataAddr k) (t.getV (BitVec.ofNat 4 k))) s

/-- Load V0 to V[x] from memory at I, ascending (44_index_memory.md R205). -/
def State.loadRegs (s : State) (x : Nibble) : State :=
  (List.range (x.toNat + 1)).foldl (fun t k => t.setV (BitVec.ofNat 4 k) (t.readByte (t.dataAddr k))) s

/-- Store the three decimal digits of `b` at I, I + 1, I + 2 (R203). -/
def State.storeDigits (s : State) (b : Byte) : State :=
  ((s.writeByte (s.dataAddr 0) (hundreds b)).writeByte (s.dataAddr 1) (tens b)).writeByte (s.dataAddr 2) (ones b)

end Sys2Proof.Machine
end

