-- ==== Sys2Proof/Machine/Control.lean ====
section
/-! DEFINITION. The control-transfer family: 00EE, 1NNN, 2NNN, BNNN (41_control.md). -/
namespace Sys2Proof.Machine

/-- `00EE`, RET: with SP = 0 the fatal StackUnderflow, nothing else written; else pop PC (R120). -/
def execRet (s : State) : Host.Outcome State Fault Refusal :=
  if h : s.sp.val = 0 then .next (s.raise (.stackUnderflow s.pc)) else .next (s.popPc h)

/-- `1NNN`, JP NNN (R121). -/
def execJp (nnn : Addr) (s : State) : Host.Outcome State Fault Refusal :=
  .next (s.setPc (absolute nnn))

/-- `2NNN`, CALL NNN: with SP = 16 the fatal StackOverflow, nothing else written; else push PC + 2 and
jump (R122). -/
def execCall (nnn : Addr) (s : State) : Host.Outcome State Fault Refusal :=
  if h : s.sp.val < 16 then .next ((s.push (s.pc + 2#16) h).setPc (absolute nnn))
  else .next (s.raise (.stackOverflow s.pc))

/-- `BNNN`, JP V0, NNN: PC = NNN + V0, not masked (R123). -/
def execJpV0 (nnn : Addr) (s : State) : Host.Outcome State Fault Refusal :=
  .next (s.setPc (s.indexedTarget nnn))

end Sys2Proof.Machine
end

