-- ==== Sys2Proof/Machine/Display.lean ====
section
/-! DEFINITION. The display family: 00E0 and DXYN (40_display.md). -/
namespace Sys2Proof.Machine

/-- `00E0`, CLS: clear the framebuffer, mark it dirty (R102). -/
def execCls (s : State) : Host.Outcome State Fault Refusal :=
  .next (s.setFb clearedFb).advance

/-- `DXYN`, DRW Vx, Vy, N: XOR the N-row sprite at I onto the framebuffer at (V[X], V[Y]); VF is the
collision flag, written last; dirty is set always (R103). -/
def execDrw (x y n : Nibble) (s : State) : Host.Outcome State Fault Refusal :=
  let drawn := drawSprite s.spriteRow n.toNat (s.getV x).toNat (s.getV y).toNat s.fb
  .next ((s.setFb drawn.1).setFlag drawn.2).advance

end Sys2Proof.Machine
end

