-- ==== Sys2Proof/Machine/IndexMemory.lean ====
section
/-! DEFINITION. The index-register and memory family: ANNN, FX1E, FX29, FX33, FX55, FX65
(44_index_memory.md). No access changes I. -/
namespace Sys2Proof.Machine

/-- `ANNN`, LD I, NNN (R200). -/
def execLdI (nnn : Addr) (s : State) : Host.Outcome State Fault Refusal :=
  .next (s.setIndex (absolute nnn)).advance

/-- `FX1E`, ADD I, Vx: modulo 4096, VF unchanged (R201). -/
def execAddI (x : Nibble) (s : State) : Host.Outcome State Fault Refusal :=
  .next (s.setIndex (s.indexPlus (s.getV x))).advance

/-- `FX29`, LD F, Vx: I = 5 * V[X] (R202). -/
def execLdF (x : Nibble) (s : State) : Host.Outcome State Fault Refusal :=
  .next (s.setIndex (glyphAddr (s.getV x))).advance

/-- `FX33`, LD B, Vx: the decimal digits of V[X] at I, I + 1, I + 2 (R203). -/
def execLdB (x : Nibble) (s : State) : Host.Outcome State Fault Refusal :=
  .next (s.storeDigits (s.getV x)).advance

/-- `FX55`, LD [I], Vx: store V0 to V[X] (R204). -/
def execLdMemVx (x : Nibble) (s : State) : Host.Outcome State Fault Refusal :=
  .next (s.storeRegs x).advance

/-- `FX65`, LD Vx, [I]: load V0 to V[X] (R205). -/
def execLdVxMem (x : Nibble) (s : State) : Host.Outcome State Fault Refusal :=
  .next (s.loadRegs x).advance

end Sys2Proof.Machine
end

