-- ==== Sys2Proof/Machine/Skip.lean ====
section
/-! DEFINITION. The conditional-skip family: 3XNN, 4XNN, 5XY0, 9XY0 (42_skip.md). -/
namespace Sys2Proof.Machine

/-- `3XNN`, SE Vx, NN: skip if V[X] = NN (R141). -/
def execSeImm (x : Nibble) (nn : Byte) (s : State) : Host.Outcome State Fault Refusal :=
  .next (s.skipIf (s.getV x == nn))

/-- `4XNN`, SNE Vx, NN: skip if V[X] ≠ NN (R142). -/
def execSneImm (x : Nibble) (nn : Byte) (s : State) : Host.Outcome State Fault Refusal :=
  .next (s.skipIf (s.getV x != nn))

/-- `5XY0`, SE Vx, Vy: skip if V[X] = V[Y] (R143). -/
def execSeReg (x y : Nibble) (s : State) : Host.Outcome State Fault Refusal :=
  .next (s.skipIf (s.getV x == s.getV y))

/-- `9XY0`, SNE Vx, Vy: skip if V[X] ≠ V[Y] (R144). -/
def execSneReg (x y : Nibble) (s : State) : Host.Outcome State Fault Refusal :=
  .next (s.skipIf (s.getV x != s.getV y))

end Sys2Proof.Machine
end

