-- ==== Sys2Proof/Machine/TimerInput.lean ====
section
/-! DEFINITION. The key and timer family: EX9E, EXA1, FX07, FX0A, FX15, FX18 (45_timer_input.md). -/
namespace Sys2Proof.Machine

/-- `EX9E`, SKP Vx: skip if key[V[X]] is pressed; the latch is only read (R231). -/
def execSkp (x : Nibble) (s : State) : Host.Outcome State Fault Refusal :=
  .next (s.skipIf (s.keyPressed (s.getV x)))

/-- `EXA1`, SKNP Vx: skip if key[V[X]] is not pressed (R232). -/
def execSknp (x : Nibble) (s : State) : Host.Outcome State Fault Refusal :=
  .next (s.skipIf (!s.keyPressed (s.getV x)))

/-- `FX07`, LD Vx, DT (R233). -/
def execLdVxDt (x : Nibble) (s : State) : Host.Outcome State Fault Refusal :=
  .next (s.setV x s.dt).advance

/-- `FX0A`, LD Vx, K: enter the key wait; PC advances now, V[X] is written by the completion (R234, D6). -/
def execLdVxK (x : Nibble) (s : State) : Host.Outcome State Fault Refusal :=
  .next (s.enterWait x).advance

/-- `FX15`, LD DT, Vx: tAcc is not changed (R238). -/
def execLdDtVx (x : Nibble) (s : State) : Host.Outcome State Fault Refusal :=
  .next { s with dt := s.getV x }.advance

/-- `FX18`, LD ST, Vx: any value is stored as given (R239). -/
def execLdStVx (x : Nibble) (s : State) : Host.Outcome State Fault Refusal :=
  .next { s with st := s.getV x }.advance

end Sys2Proof.Machine
end

