-- ==== Sys2Proof/Machine/Step.lean ====
section
/-! DEFINITION. The step transaction `step()` (30_encoding.md R80). It executes at most one instruction and
never services the timers (60_exceptions.md R278). -/
namespace Sys2Proof.Machine

/-- `step()`: its effect on the state. The result it returns to the host is `stepReport` of
Machine/Transactions.lean (R261; the result is no state, R36). -/
def step (s : State) : Host.Outcome State Fault Refusal :=
  match s.nextAction with
  | .stayHalted _ => .next s
  | .blocked => .next s
  | .resume k => .next (s.completeWait k)
  | .outOfBounds => .next (s.raise (.fetchOutOfBounds s.pc))
  | .unknown op => execUnknown op s
  | .run i => exec i s

/-- `s` with the instruction whose table bits are `w` stored where `step` fetches its next instruction, and
whatever else that step needs to fetch at all (log 25). -/
def State.withFetchWord (s : State) (nbits w : Nat) : State :=
  s.readyToFetch.placeOpcode (tableWord nbits w)

end Sys2Proof.Machine
end

