-- ==== Sys2Proof/Machine/Transactions.lean ====
section
/-! DEFINITION. The block's whole host interface: the nine operations of 60_exceptions.md R283, each one atomic
transaction with arguments in and a result out (00_scope.md R5, R6). The host chooses their order (R303). -/
namespace Sys2Proof.Machine

/-- What `step()` returns to the host (R261). -/
inductive StepResult where
  /-- A recognized instruction ran to completion. -/
  | executed
  /-- An unrecognized word ran as a no-op (R77). -/
  | unknownOpcode (op : Word) (pc : Word)
  /-- Awaiting a key, none captured (R235). -/
  | blocked
  /-- A key wait completed with key `k` (R237). -/
  | resumed (k : Nibble)
  /-- A fatal error was raised in this step, or the core was already halted with it (R262, R266). -/
  | fatal (e : FatalError)
deriving DecidableEq, Repr

/-- The result of a step from `s` that leaves the state `t` (R261): Fatal(e) where `t` is halted with e,
else what the step did. -/
def stepReport (s t : State) : StepResult :=
  match t.status with
  | .halted e => .fatal e
  | .running =>
    match s.nextAction with
    | .blocked => .blocked
    | .resume k => .resumed k
    | .unknown op => .unknownOpcode op s.pc
    | _ => .executed

/-- The largest program, 4096 − 512 bytes (R8 PROG_MAX, R302). -/
abbrev programMax : Nat := 3584

/-- The host operations (R283). -/
inductive HostOp where
  | construct
  | load (bytes : List Byte)
  | reset
  | step
  | tickTimers (elapsedMs : Nat)
  | setKey (k : Nat) (pressed : Bool)
  | isFramebufferDirty
  | consumeFramebuffer
  | soundTimerActive
deriving DecidableEq, Repr

/-- What a host operation returns (R283). -/
inductive HostResult where
  /-- No result. -/
  | done
  /-- `load` wrote the program (R302). -/
  | loaded
  /-- `load` of more than 3584 bytes, rejected before any change (R302, R260). -/
  | programTooLarge (n : Nat)
  /-- The result of `step()` (R261). -/
  | stepped (r : StepResult)
  /-- The answer of a yes/no query. -/
  | answer (b : Bool)
  /-- A copy of the whole framebuffer (R282). -/
  | grid (fb : Framebuffer)
deriving DecidableEq, Repr

/-- The numeric code of an error, this spec's own labels, 0 for no error (R260, D20). -/
def HostResult.errorCode : HostResult → Nat
  | .stepped (.unknownOpcode _ _) => 1
  | .stepped (.fatal (.fetchOutOfBounds _)) => 2
  | .stepped (.fatal (.stackOverflow _)) => 3
  | .stepped (.fatal (.stackUnderflow _)) => 4
  | .programTooLarge _ => 5
  | _ => 0

/-- `construct()`: a new VM (R300). The parameters are the machine's, and the oracle is not wound back
(logs 2, 6). -/
def opConstruct (s : State) : HostResult × State := (.done, State.construct s.cfg s.draws)

/-- `load(bytes)`: bytes from 0x200 up, no other state changed, in any status; too many are rejected before
any change (R302, D25). -/
def opLoad (bytes : List Byte) (s : State) : HostResult × State :=
  if programMax < bytes.length then (.programTooLarge bytes.length, s)
  else (.loaded, s.writeBytes 0x200#12 bytes)

/-- `reset()` (R301). -/
def opReset (s : State) : HostResult × State := (.done, s.resetVm)

/-- `tickTimers(elapsedMs)`: one millisecond is 3 units of tAcc; a tick for each period exceeded, the
remainder kept (R275, D17). Allowed in every status (D18). -/
def opTickTimers (elapsedMs : Nat) (s : State) : HostResult × State :=
  (.done, State.tickLoop { s with tAcc := s.tAcc + 3 * elapsedMs } (s.tAcc + 3 * elapsedMs))

/-- `setKey(k, pressed)` for k in 0..15: the latch bit, and the capture of the first press of a key wait
(R280, R236, D7). -/
def State.reportKey (s : State) (k : Nibble) (pressed : Bool) : State :=
  { s.setKeyBit k pressed with
    pendingKey := if pressed && s.awaitingKey && s.pendingKey.isNone then some k else s.pendingKey }

/-- `isFramebufferDirty()` (R281). -/
def opIsFramebufferDirty (s : State) : HostResult × State := (.answer s.dirty, s)

/-- `consumeFramebuffer()`: the snapshot, and the explicit clear of `dirty` (R282, D15). -/
def opConsumeFramebuffer (s : State) : HostResult × State := (.grid s.fb, { s with dirty := false })

/-- `soundTimerActive()`: ST ≠ 0 (R276). -/
def opSoundTimerActive (s : State) : HostResult × State := (.answer (s.st != 0#8), s)

/-- `setKey(k, pressed)`; an index outside 0..15 is refused (R280, D22). -/
def opSetKey (k : Nat) (pressed : Bool) (s : State) : Host.Outcome (HostResult × State) Fault Refusal :=
  if k < 16 then .next (.done, s.reportKey (BitVec.ofNat 4 k) pressed)
  else .refused (.keyIndexOutOfRange k)

/-- `step()` with its result (R80, R261). -/
def opStep (s : State) : Host.Outcome (HostResult × State) Fault Refusal :=
  match step s with
  | .next t => .next (.stepped (stepReport s t), t)
  | .fault r => .fault r
  | .refused r => .refused r

/-- One host operation (R283). -/
def transact (op : HostOp) (s : State) : Host.Outcome (HostResult × State) Fault Refusal :=
  match op with
  | .construct => .next (opConstruct s)
  | .load bytes => .next (opLoad bytes s)
  | .reset => .next (opReset s)
  | .step => opStep s
  | .tickTimers elapsedMs => .next (opTickTimers elapsedMs s)
  | .setKey k pressed => opSetKey k pressed s
  | .isFramebufferDirty => .next (opIsFramebufferDirty s)
  | .consumeFramebuffer => .next (opConsumeFramebuffer s)
  | .soundTimerActive => .next (opSoundTimerActive s)

end Sys2Proof.Machine
end

