-- ==== Sys2Proof/Safety.lean ====
section
/-! DEFINITION. What claims about the whole machine are stated with: the states a host can reach, the
invariants of those states (10_state.md R41), and when a step runs, waits, or has stopped. -/
namespace Sys2Proof.Machine

/-- The V registers the spec says an instruction writes: its X register, VF as a flag, or V0 to V[X]
(10_state.md R21, R38, 43_alu.md R181). A key wait's register is written by its completion (R237). -/
def writesV (i : Instr) (r : Nibble) : Bool :=
  match i with
  | .ldImm x _ | .addImm x _ | .ldReg x _ | .orReg x _ | .andReg x _ | .xorReg x _ | .rnd x _ | .ldVxDt x => r == x
  | .addReg x _ | .sub x _ | .shr x _ | .subn x _ | .shl x _ => r == x || r == regF
  | .drw _ _ _ => r == regF
  | .ldVxMem x => r.toNat ≤ x.toNat
  | .cls | .ret | .jp _ | .call _ | .seImm _ _ | .sneImm _ _ | .seReg _ _ | .sneReg _ _ | .ldI _ | .jpV0 _
  | .skp _ | .sknp _ | .ldVxK _ | .ldDtVx _ | .ldStVx _ | .addI _ | .ldF _ | .ldB _ | .ldMemVx _ => false

/-- A step fetches and runs an instruction (R81): status Running, no key wait, the fetch in bounds. -/
def State.Ready (s : State) : Prop :=
  s.status = .running ∧ s.awaitingKey = false ∧ s.pc.toNat + 1 ≤ 0xFFF

/-- The core is halted by a fatal error (R35, R262). -/
def State.IsHalted (s : State) : Prop := ∃ e, s.status = .halted e

/-- Blocked in a key wait with no key captured (R235). -/
def State.IsBlocked (s : State) : Prop :=
  s.status = .running ∧ s.awaitingKey = true ∧ s.pendingKey = none

/-- Every element of state but the V registers and PC is the same in `t` as in `s`. -/
def State.SameButVPc (s t : State) : Prop := t = { s with v := t.v, pc := t.pc }

/-- Every byte of memory reads the same. -/
def State.SameMemory (s t : State) : Prop := ∀ a : Addr, t.readByte a = s.readByte a

/-- A set source bit of the row lands on pixel (px, py), wrapped (R103). -/
def RowCovers (row : Byte) (x y px py : Nat) : Prop :=
  ∃ c, c < 8 ∧ row.getLsbD (7 - c) = true ∧ px % 64 = (x + c) % 64 ∧ py % 32 = y % 32

/-- A set source bit of the sprite lands on pixel (px, py): some row r covers it (R103, R104). -/
def SpriteCovers (rows : Nat → Byte) (n x y px py : Nat) : Prop :=
  ∃ r, r < n ∧ RowCovers (rows r) x (y + r) px py

/-- Byte `r` of the memory run at I: the address I + r modulo 4096 (20_memory.md R55). -/
def State.byteAtIndex (s : State) (r : Nat) : Byte := s.readByte (BitVec.ofNat 12 (s.index.toNat + r))

/-- The sprite of `DXYN` with X = x, Y = y, N = n covers pixel (px, py): a set source bit lands on it (R103). -/
def State.drawCovers (s : State) (x y n : Nibble) (px py : Nat) : Prop :=
  SpriteCovers s.byteAtIndex n.toNat (s.getV x).toNat (s.getV y).toNat px py

/-- The frame of an instruction that writes V registers and PC only: every V register outside `dest`, every byte
of memory and every other element of state is unchanged. -/
structure State.RegisterFrame (s t : State) (dest : Nibble → Prop) : Prop where
  others : ∀ r, ¬ dest r → t.getV r = s.getV r
  memory : s.SameMemory t
  rest : s.SameButVPc t

/-- The frame of an instruction that writes PC only. -/
structure State.PcFrame (s t : State) : Prop where
  memory : s.SameMemory t
  rest : t = { s with pc := t.pc }

/-- The frame of an instruction that stores to memory: PC and the bytes at the addresses in `stored` only. -/
structure State.StoreFrame (s t : State) (stored : Addr → Prop) : Prop where
  memory : ∀ a, ¬ stored a → t.readByte a = s.readByte a
  rest : t = { s with mem := t.mem, pc := t.pc }

/-- The invariants of the reachable states, R41 (a) to (f), and the canonical form of memory. R41 (b), SP
0..16, and (g), bytes, hold by type; (h) is about tickTimers and is `TimeKept`. -/
structure State.Inv (s : State) : Prop where
  /-- R41 (a), R206. -/
  index_le : s.index.toNat ≤ 0xFFF
  /-- R41 (c). -/
  pc_le : s.pc.toNat ≤ 0x10FE
  /-- R41 (d). -/
  stack_le : ∀ j (h : j < 16), (s.stack[j]'h).toNat ≤ 0x1000
  /-- R41 (e). -/
  pending_awaits : s.pendingKey ≠ none → s.awaitingKey = true
  /-- R41 (f). -/
  awaiting_runs : s.awaitingKey = true → s.status = .running
  /-- Memory is in its canonical form. -/
  mem_wf : Memory.wf s.blank s.mem

/-- R41 (h): between host operations less than or exactly one period is accumulated. -/
def State.TimeKept (s : State) : Prop := s.tAcc ≤ 50

/-- The states reachable from `construct()`, with any parameters, by any sequence of host operations
(R41, R303). -/
inductive State.Reachable : State → Prop where
  | construct (cfg : Config) (draws : Nat) : State.Reachable (State.construct cfg draws)
  | transact (op : HostOp) (s : State) (r : HostResult) (t : State) :
      State.Reachable s → transact op s = .next (r, t) → State.Reachable t

end Sys2Proof.Machine
end

