-- ==== Sys2Proof/Certificates/Slice0/Obligations.lean ====
section
/-! DEFINITION. The statements for the provers. Each says what a rule of spec/ says, in the spec's own arithmetic
(naturals and moduli), about every state, those no run reaches among them. A frame is said as an equation
`t = (s with the changed fields)`: every element of state not named there is unchanged, the model's own `cfg` and `draws`
among them. Nothing here rests on a value of `cfg` or of `Config.randomByte`. -/
open Sys2Proof Sys2Proof.Machine

/-! ## Encoding (30_encoding.md) -/

/-- R71, R72, R75: every instruction, at every value of its fields, decodes from its own encoding. -/
def Obligations.DecodeAfterEncode : Prop := ∀ i : Instr, decode (encode i) = .ok i

/-- R71, R74: encoding what was decoded gives the word back. For SHR and SHL this is the model's choice to keep the don't-care
field Y in the instruction (log 26); the spec says only that every Y decodes to the same instruction. -/
def Obligations.EncodeAfterDecode : Prop := ∀ (w : Word) (i : Instr), decode w = .ok i → encode i = w

/-- R74, R76: the decoder rejects exactly the unrecognized words, each by its own name. -/
def Obligations.RejectedWordsExactly : Prop :=
  ∀ w : Word, decode w = .error (.unrecognized w) ↔
    (w.toNat / 4096 = 0x0 ∧ w.toNat ≠ 0x00E0 ∧ w.toNat ≠ 0x00EE) ∨
    (w.toNat / 4096 = 0x5 ∧ w.toNat % 16 ≠ 0) ∨
    (w.toNat / 4096 = 0x8 ∧ 8 ≤ w.toNat % 16 ∧ w.toNat % 16 ≠ 0xE) ∨
    (w.toNat / 4096 = 0x9 ∧ w.toNat % 16 ≠ 0) ∨
    (w.toNat / 4096 = 0xE ∧ w.toNat % 256 ≠ 0x9E ∧ w.toNat % 256 ≠ 0xA1) ∨
    (w.toNat / 4096 = 0xF ∧ w.toNat % 256 ∉ [0x07, 0x0A, 0x15, 0x18, 0x1E, 0x29, 0x33, 0x55, 0x65])

/-- R74, R75: no two rows of the opcode map match the same word, and the decoder reads an instruction exactly from the
words that some row matches. -/
def Obligations.MapRowsDisjointAndDecoded : Prop :=
  (∀ (w : Word) (r q : OpcodeRow), r ∈ opcodeTable → q ∈ opcodeTable →
    r.matches w = true → q.matches w = true → r = q) ∧
  ∀ w : Word, recognized w = true ↔ ∃ i, decode w = .ok i

/-- R75, R77: sample words of every family, written out from the map, big-endian, decode to what they stand for. -/
def Obligations.SampleWordsDecode : Prop :=
  decodeBytes 0x00#8 0xEE#8 = .ok .ret ∧ decodeBytes 0x1A#8 0xBC#8 = .ok (.jp 0xABC#12) ∧
  decodeBytes 0x33#8 0x42#8 = .ok (.seImm 3#4 0x42#8) ∧ decodeBytes 0x8A#8 0xB6#8 = .ok (.shr 0xA#4 0xB#4) ∧
  decodeBytes 0xD0#8 0x15#8 = .ok (.drw 0#4 1#4 5#4) ∧ decodeBytes 0xEF#8 0xA1#8 = .ok (.sknp 0xF#4) ∧
  decodeBytes 0xF1#8 0x65#8 = .ok (.ldVxMem 1#4) ∧ decodeBytes 0x51#8 0x21#8 = .error (.unrecognized 0x5121#16)

/-! ## The step transaction (30_encoding.md, 60_exceptions.md) -/

/-- R58, R80, R81: when the two bytes at PC and PC + 1, big-endian, decode to an instruction, a step of a running core that
awaits no key is exactly the meaning of that instruction, with nothing around it. -/
def Obligations.StepRunsDecoded : Prop :=
  ∀ (s : State) (i : Instr), s.Ready →
    decode (BitVec.ofNat 16 ((s.readByte (BitVec.ofNat 12 s.pc.toNat)).toNat * 256
      + (s.readByte (BitVec.ofNat 12 (s.pc.toNat + 1))).toNat)) = .ok i →
    step s = exec i s

/-- R73: a PC with PC + 1 > 0xFFF, not masked, is the fatal FetchOutOfBounds; any other PC fetches the big-endian word at
PC and PC + 1. -/
def Obligations.FetchBoundAndByteOrder : Prop :=
  ∀ s : State, s.status = .running → s.awaitingKey = false →
    (0xFFF < s.pc.toNat + 1 →
      step s = .next { s with status := .halted (.fetchOutOfBounds s.pc) } ∧
      opStep s = .next (.stepped (.fatal (.fetchOutOfBounds s.pc)),
        { s with status := .halted (.fetchOutOfBounds s.pc) })) ∧
    (s.pc.toNat + 1 ≤ 0xFFF →
      s.pc.toNat < 4096 ∧ s.pc.toNat + 1 < 4096 ∧
      s.fetchWord.toNat = (s.readByte (BitVec.ofNat 12 s.pc.toNat)).toNat * 256
        + (s.readByte (BitVec.ofNat 12 (s.pc.toNat + 1))).toNat)

/-- R77: an unrecognized word advances PC by 2, changes nothing else and reports UnknownOpcode(op, pc); at 0xFFE it leaves
PC at 0x1000, and the next step raises FetchOutOfBounds. -/
def Obligations.UnknownWordIsNoop : Prop :=
  ∀ s : State, s.Ready → decode s.fetchWord = .error (.unrecognized s.fetchWord) →
    ∃ t, opStep s = .next (.stepped (.unknownOpcode s.fetchWord s.pc), t) ∧
      t.pc.toNat = s.pc.toNat + 2 ∧ t = { s with pc := t.pc } ∧ s.SameMemory t ∧
      (s.pc = 0xFFE#16 → step t = .next { t with status := .halted (.fetchOutOfBounds 0x1000#16) })

/-- R266: a step of a halted core changes nothing and reports the same fatal error again: the spec's own decision D16 (log 7). -/
def Obligations.HaltedStepInert : Prop :=
  ∀ (s : State) (e : FatalError), s.status = .halted e → opStep s = .next (.stepped (.fatal e), s)

/-- R235: a step while blocked with no captured press changes nothing and reports Blocked. -/
def Obligations.BlockedStepInert : Prop :=
  ∀ s : State, s.IsBlocked → opStep s = .next (.stepped .blocked, s)

/-- R237: the step that completes a key wait writes the key index to V[awaitReg], clears that key and the wait, leaves PC and
everything else, runs no instruction and reports Resumed(k); the next step fetches at that PC. That the key is cleared and no
instruction runs is the spec's own decision (D8, D9; log 15). -/
def Obligations.KeyWaitCompletes : Prop :=
  ∀ (s : State) (k : Nibble), s.status = .running → s.awaitingKey = true → s.pendingKey = some k →
    ∃ t, opStep s = .next (.stepped (.resumed k), t) ∧
      (t.getV s.awaitReg).toNat = k.toNat ∧ (∀ r, r ≠ s.awaitReg → t.getV r = s.getV r) ∧
      t.keyBit k = false ∧ (∀ j, j ≠ k → t.keyBit j = s.keyBit j) ∧
      t = { s with v := t.v, key := t.key, awaitingKey := false, pendingKey := none } ∧ s.SameMemory t ∧
      (t.pc.toNat + 1 ≤ 0xFFF → t.Ready)

/-- R265, R261: the four checks of a step in their order; the first that applies decides the result. The spec derives R265 itself,
and the results of a blocked, a resuming and a halted step rest on its decisions D9, D16 and D30 (logs 7, 15, 22). -/
def Obligations.StepReportPriority : Prop :=
  ∀ s : State, ∃ r t, opStep s = .next (.stepped r, t) ∧
    (match s.status with
    | .halted e => r = .fatal e
    | .running =>
      if s.awaitingKey = true then
        (s.pendingKey = none ∧ r = .blocked) ∨ (∃ k, s.pendingKey = some k ∧ r = .resumed k)
      else if 0xFFF < s.pc.toNat + 1 then r = .fatal (.fetchOutOfBounds s.pc)
      else match decode s.fetchWord with
        | .error _ => r = .unknownOpcode s.fetchWord s.pc
        | .ok i =>
          ((∃ nnn, i = .call nnn) ∧ s.sp.val = 16 ∧ r = .fatal (.stackOverflow s.pc)) ∨
          (i = .ret ∧ s.sp.val = 0 ∧ r = .fatal (.stackUnderflow s.pc)) ∨
          (¬ ((∃ nnn, i = .call nnn) ∧ s.sp.val = 16) ∧ ¬ (i = .ret ∧ s.sp.val = 0) ∧ r = .executed))

/-- R262: a step that halts a running core writes nothing but the status, and reports the error. -/
def Obligations.FatalErrorWritesNothing : Prop :=
  ∀ (s t : State) (e : FatalError), s.status = .running → step s = .next t → t.status = .halted e →
    t = { s with status := .halted e } ∧ opStep s = .next (.stepped (.fatal e), t)

/-- R260: every step answers a next state; no instruction, operand or address ends a run. That a step of a halted core answers
at all is a choice: the spec's own decision D16 lets a model refuse that call (R266, log 7). -/
def Obligations.EveryStepAnswers : Prop := ∀ s : State, ∃ t, step s = .next t

/-! ## The display family (40_display.md) -/

/-- R102: CLS clears all 64 × 32 pixels, sets dirty, advances PC by 2 and changes nothing else. -/
def Obligations.ClsClearsScreen : Prop :=
  ∀ s : State, ∃ t, exec .cls s = .next t ∧ (∀ x y, pixel t.fb x y = false) ∧
    t = { s with fb := t.fb, dirty := true, pc := s.pc + 2#16 } ∧ s.SameMemory t

/-- R103, R104: DRW toggles each pixel that a set source bit covers once and no other; VF is 1 exactly when a covered pixel was 1,
else 0; dirty is set and PC advances by 2 on every path; all else is unchanged. Which bit of a row is which column is the
spec's own decision D12 (R101, log 8), and R104 is an inference of the spec. -/
def Obligations.DrwTogglesCoveredPixels : Prop :=
  ∀ (s : State) (x y n : Nibble), ∃ t, exec (.drw x y n) s = .next t ∧
    (∀ px py, px < 64 → py < 32 → s.drawCovers x y n px py → pixel t.fb px py = !pixel s.fb px py) ∧
    (∀ px py, px < 64 → py < 32 → ¬ s.drawCovers x y n px py → pixel t.fb px py = pixel s.fb px py) ∧
    ((∃ px py, px < 64 ∧ py < 32 ∧ s.drawCovers x y n px py ∧ pixel s.fb px py = true) → t.getV regF = 1#8) ∧
    (¬ (∃ px py, px < 64 ∧ py < 32 ∧ s.drawCovers x y n px py ∧ pixel s.fb px py = true) → t.getV regF = 0#8) ∧
    (∀ r, r ≠ regF → t.getV r = s.getV r) ∧
    t = { s with fb := t.fb, dirty := true, v := t.v, pc := s.pc + 2#16 } ∧ s.SameMemory t

/-- R105: the same sprite drawn twice at the same place, nothing else having touched the framebuffer between, restores every
pixel; the second draw reports 1 exactly when a covered pixel was 0 before the first, so that covered pixels all 1 give 1
then 0, and a sprite that covers nothing gives 0 both times. R105 is an inference the spec draws from R103,
and which pixels are covered rests on its decision D12, bit 7 leftmost (R101, log 8). -/
def Obligations.DrwTwiceRestores : Prop :=
  ∀ (s t u w : State) (x y n : Nibble), exec (.drw x y n) s = .next t → exec (.drw x y n) u = .next w →
    u.fb = t.fb → u.index = s.index → u.getV x = s.getV x → u.getV y = s.getV y →
    (∀ r, r < n.toNat → u.byteAtIndex r = s.byteAtIndex r) →
    w.fb = s.fb ∧ (w.getV regF = 0#8 ∨ w.getV regF = 1#8) ∧
    (w.getV regF = 1#8 ↔ ∃ px py, px < 64 ∧ py < 32 ∧ s.drawCovers x y n px py ∧ pixel s.fb px py = false) ∧
    ((∃ px py, px < 64 ∧ py < 32 ∧ s.drawCovers x y n px py) →
      (∀ px py, px < 64 → py < 32 → s.drawCovers x y n px py → pixel s.fb px py = true) →
      t.getV regF = 1#8 ∧ w.getV regF = 0#8) ∧
    ((∀ px py, px < 64 → py < 32 → ¬ s.drawCovers x y n px py) → t.getV regF = 0#8 ∧ w.getV regF = 0#8)

/-! ## The control-transfer family (41_control.md) -/

/-- R120: RET with SP above 0 takes SP down by 1 and PC from that entry, which keeps its value; with SP = 0 it is the fatal
StackUnderflow and nothing is written. That the entry keeps its value is the spec's own decision D28 (R25, log 23). -/
def Obligations.RetPopsOrUnderflows : Prop :=
  ∀ s : State,
    (s.sp.val ≠ 0 → ∃ t, exec .ret s = .next t ∧ t.sp.val + 1 = s.sp.val ∧
      (∀ h : t.sp.val < 16, t.pc = s.stack[t.sp.val]'h) ∧ t = { s with pc := t.pc, sp := t.sp } ∧ s.SameMemory t) ∧
    (s.sp.val = 0 → exec .ret s = .next { s with status := .halted (.stackUnderflow s.pc) })

/-- R121: JP sets PC to NNN; nothing else changes. -/
def Obligations.JumpSetsPc : Prop :=
  ∀ (s : State) (nnn : Addr), ∃ t, exec (.jp nnn) s = .next t ∧ t.pc.toNat = nnn.toNat ∧ s.PcFrame t

/-- R123: JP V0 sets PC to NNN + V0; nothing else changes. That the sum is not masked to 12 bits is the spec's own decision D2
(log 9). -/
def Obligations.IndexedJumpAddsV0 : Prop :=
  ∀ (s : State) (nnn : Addr), ∃ t, exec (.jpV0 nnn) s = .next t ∧
    t.pc.toNat = nnn.toNat + (s.getV 0#4).toNat ∧ s.PcFrame t

/-- R122: CALL with SP below 16 stores PC + 2 at stack[SP], takes SP up by 1 and PC to NNN; with SP = 16 it is the fatal
StackOverflow and nothing is written. -/
def Obligations.CallPushesOrOverflows : Prop :=
  ∀ (s : State) (nnn : Addr),
    (∀ h : s.sp.val < 16, ∃ t, exec (.call nnn) s = .next t ∧
      t.stack[s.sp.val]'h = s.pc + 2#16 ∧
      (∀ j (hj : j < 16), j ≠ s.sp.val → t.stack[j]'hj = s.stack[j]'hj) ∧
      t.sp.val = s.sp.val + 1 ∧ t.pc.toNat = nnn.toNat ∧
      t = { s with stack := t.stack, sp := t.sp, pc := t.pc } ∧ s.SameMemory t) ∧
    (s.sp.val = 16 → exec (.call nnn) s = .next { s with status := .halted (.stackOverflow s.pc) })

/-- R124: a RET with SP back one above where a successful CALL found it, the entry that CALL wrote still there, returns to the
address after the CALL and leaves SP at its value before the CALL. R124 is an inference the spec draws from R120 and R122. -/
def Obligations.RetUndoesCall : Prop :=
  ∀ (s t u : State) (nnn : Addr), s.sp.val < 16 → exec (.call nnn) s = .next t →
    u.sp = t.sp → (∀ h : s.sp.val < 16, u.stack[s.sp.val]'h = t.stack[s.sp.val]'h) →
    ∃ w, exec .ret u = .next w ∧ w.pc = s.pc + 2#16 ∧ w.sp = s.sp

/-- R25, R124: no step changes a stack entry in use: entries below SP keep their values. That a popped entry keeps its value is the
spec's own decision D28 (log 23). -/
def Obligations.LiveStackEntriesKept : Prop :=
  ∀ (s t : State), step s = .next t → ∀ j (h : j < 16), j < s.sp.val → t.stack[j]'h = s.stack[j]'h

/-! ## The skips (42_skip.md, 45_timer_input.md) -/

/-- R140 to R144: the four register skips: PC + 4 where the condition holds, PC + 2 where it does not; nothing else changes. -/
def Obligations.SkipsCompareRegisters : Prop :=
  ∀ (s : State) (x y : Nibble) (nn : Byte),
    (∃ t, exec (.seImm x nn) s = .next t ∧ s.PcFrame t ∧
      t.pc = s.pc + (if (s.getV x).toNat = nn.toNat then 4#16 else 2#16)) ∧
    (∃ t, exec (.sneImm x nn) s = .next t ∧ s.PcFrame t ∧
      t.pc = s.pc + (if (s.getV x).toNat = nn.toNat then 2#16 else 4#16)) ∧
    (∃ t, exec (.seReg x y) s = .next t ∧ s.PcFrame t ∧
      t.pc = s.pc + (if (s.getV x).toNat = (s.getV y).toNat then 4#16 else 2#16)) ∧
    (∃ t, exec (.sneReg x y) s = .next t ∧ s.PcFrame t ∧
      t.pc = s.pc + (if (s.getV x).toNat = (s.getV y).toNat then 2#16 else 4#16))

/-- R230, R231, R232: the key skips: the latch bit V[X] names; a V[X] of 16 or more is not pressed, or its low nibble's key, as
KEY_OOR says, whichever value it has (R230 is the spec's own decision D5, log 5); the latch is only read. -/
def Obligations.KeySkipsReadLatch : Prop :=
  ∀ (s : State) (x : Nibble) (pressed : Bool),
    ((s.getV x).toNat < 16 → pressed = s.keyBit (BitVec.ofNat 4 (s.getV x).toNat)) →
    (16 ≤ (s.getV x).toNat → s.cfg.keyOor = .notPressed → pressed = false) →
    (16 ≤ (s.getV x).toNat → s.cfg.keyOor = .lowNibble →
      pressed = s.keyBit (BitVec.ofNat 4 ((s.getV x).toNat % 16))) →
    (∃ t, exec (.skp x) s = .next t ∧ s.PcFrame t ∧ t.pc = s.pc + (if pressed then 4#16 else 2#16)) ∧
    (∃ t, exec (.sknp x) s = .next t ∧ s.PcFrame t ∧ t.pc = s.pc + (if pressed then 2#16 else 4#16))

/-! ## The ALU family (43_alu.md) -/

/-- R162, R164, R233: the loads of a V register, from NN, from V[Y] and from DT; no flag. -/
def Obligations.LoadsWriteRegister : Prop :=
  ∀ (s : State) (x y : Nibble) (nn : Byte),
    (∃ t, exec (.ldImm x nn) s = .next t ∧ t.getV x = nn ∧ t.pc = s.pc + 2#16 ∧ s.RegisterFrame t (· = x)) ∧
    (∃ t, exec (.ldReg x y) s = .next t ∧ t.getV x = s.getV y ∧ t.pc = s.pc + 2#16 ∧ s.RegisterFrame t (· = x)) ∧
    (∃ t, exec (.ldVxDt x) s = .next t ∧ t.getV x = s.dt ∧ t.pc = s.pc + 2#16 ∧ s.RegisterFrame t (· = x))

/-- R163: ADD Vx, NN adds modulo 256 and writes no flag. -/
def Obligations.AddImmediateWraps : Prop :=
  ∀ (s : State) (x : Nibble) (nn : Byte), ∃ t, exec (.addImm x nn) s = .next t ∧
    (t.getV x).toNat = ((s.getV x).toNat + nn.toNat) % 256 ∧ t.pc = s.pc + 2#16 ∧ s.RegisterFrame t (· = x)

/-- R165, R166, R167: OR, AND and XOR act bit by bit and write no flag. -/
def Obligations.LogicActsBitwise : Prop :=
  ∀ (s : State) (x y : Nibble),
    (∃ t, exec (.orReg x y) s = .next t ∧ t.pc = s.pc + 2#16 ∧ s.RegisterFrame t (· = x) ∧
      ∀ b, (t.getV x).getLsbD b = ((s.getV x).getLsbD b || (s.getV y).getLsbD b)) ∧
    (∃ t, exec (.andReg x y) s = .next t ∧ t.pc = s.pc + 2#16 ∧ s.RegisterFrame t (· = x) ∧
      ∀ b, (t.getV x).getLsbD b = ((s.getV x).getLsbD b && (s.getV y).getLsbD b)) ∧
    (∃ t, exec (.xorReg x y) s = .next t ∧ t.pc = s.pc + 2#16 ∧ s.RegisterFrame t (· = x) ∧
      ∀ b, (t.getV x).getLsbD b = ((s.getV x).getLsbD b ^^ (s.getV y).getLsbD b))

/-- R160, R168: ADD Vx, Vy: the sum modulo 256 and VF = 1 exactly when the true sum exceeds 255; with X = F, VF ends as VF_ORDER
says, whichever order that is (R160 is the spec's own decision D4, log 4; so in the four statements below). -/
def Obligations.AddSetsCarry : Prop :=
  ∀ (s : State) (x y : Nibble) (result flag : Byte),
    result.toNat = ((s.getV x).toNat + (s.getV y).toNat) % 256 →
    flag = (if 255 < (s.getV x).toNat + (s.getV y).toNat then 1#8 else 0#8) →
    ∃ t, exec (.addReg x y) s = .next t ∧ t.pc = s.pc + 2#16 ∧
      s.RegisterFrame t (fun r => r = x ∨ r = regF) ∧
      (x ≠ regF → t.getV x = result ∧ t.getV regF = flag) ∧
      (x = regF → s.cfg.vfOrder = .resultLast → t.getV regF = result) ∧
      (x = regF → s.cfg.vfOrder = .flagLast → t.getV regF = flag)

/-- R160, R169: SUB Vx, Vy: V[X] - V[Y] modulo 256 and VF = 1 exactly when V[X] ≥ V[Y]; with X = F as VF_ORDER says. -/
def Obligations.SubSetsNoBorrow : Prop :=
  ∀ (s : State) (x y : Nibble) (result flag : Byte),
    result.toNat = ((s.getV x).toNat + 256 - (s.getV y).toNat) % 256 →
    flag = (if (s.getV y).toNat ≤ (s.getV x).toNat then 1#8 else 0#8) →
    ∃ t, exec (.sub x y) s = .next t ∧ t.pc = s.pc + 2#16 ∧
      s.RegisterFrame t (fun r => r = x ∨ r = regF) ∧
      (x ≠ regF → t.getV x = result ∧ t.getV regF = flag) ∧
      (x = regF → s.cfg.vfOrder = .resultLast → t.getV regF = result) ∧
      (x = regF → s.cfg.vfOrder = .flagLast → t.getV regF = flag)

/-- R160, R171: SUBN Vx, Vy: V[Y] - V[X] modulo 256 and VF = 1 exactly when V[Y] ≥ V[X]; with X = F as VF_ORDER says. -/
def Obligations.SubnSetsNoBorrow : Prop :=
  ∀ (s : State) (x y : Nibble) (result flag : Byte),
    result.toNat = ((s.getV y).toNat + 256 - (s.getV x).toNat) % 256 →
    flag = (if (s.getV x).toNat ≤ (s.getV y).toNat then 1#8 else 0#8) →
    ∃ t, exec (.subn x y) s = .next t ∧ t.pc = s.pc + 2#16 ∧
      s.RegisterFrame t (fun r => r = x ∨ r = regF) ∧
      (x ≠ regF → t.getV x = result ∧ t.getV regF = flag) ∧
      (x = regF → s.cfg.vfOrder = .resultLast → t.getV regF = result) ∧
      (x = regF → s.cfg.vfOrder = .flagLast → t.getV regF = flag)

/-- R160, R170: SHR Vx: floor(V[X] / 2), VF = old bit 0; the value of Y has no effect; with X = F as VF_ORDER says. -/
def Obligations.ShrShiftsVx : Prop :=
  ∀ (s : State) (x y : Nibble) (result flag : Byte),
    result.toNat = (s.getV x).toNat / 2 → flag.toNat = (s.getV x).toNat % 2 →
    (∀ y', exec (.shr x y') s = exec (.shr x y) s) ∧
    ∃ t, exec (.shr x y) s = .next t ∧ t.pc = s.pc + 2#16 ∧
      s.RegisterFrame t (fun r => r = x ∨ r = regF) ∧
      (x ≠ regF → t.getV x = result ∧ t.getV regF = flag) ∧
      (x = regF → s.cfg.vfOrder = .resultLast → t.getV regF = result) ∧
      (x = regF → s.cfg.vfOrder = .flagLast → t.getV regF = flag)

/-- R160, R172: SHL Vx: V[X] * 2 modulo 256, VF = old bit 7; the value of Y has no effect; with X = F as VF_ORDER says. -/
def Obligations.ShlShiftsVx : Prop :=
  ∀ (s : State) (x y : Nibble) (result flag : Byte),
    result.toNat = (s.getV x).toNat * 2 % 256 → flag.toNat = (s.getV x).toNat / 128 →
    (∀ y', exec (.shl x y') s = exec (.shl x y) s) ∧
    ∃ t, exec (.shl x y) s = .next t ∧ t.pc = s.pc + 2#16 ∧
      s.RegisterFrame t (fun r => r = x ∨ r = regF) ∧
      (x ≠ regF → t.getV x = result ∧ t.getV regF = flag) ∧
      (x = regF → s.cfg.vfOrder = .resultLast → t.getV regF = result) ∧
      (x = regF → s.cfg.vfOrder = .flagLast → t.getV regF = flag)

/-- R180, R182: RND: the byte of this draw AND NN, whatever the draw is: a bit where NN is 0 is 0, and NN = 0xFF gives the draw;
one draw is made and no flag is written. The draw is the free value `Config.randomByte` at this draw (log 6). -/
def Obligations.RndMasksDraw : Prop :=
  ∀ (s : State) (x : Nibble) (nn : Byte), ∃ t, exec (.rnd x nn) s = .next t ∧
    (∀ b, (t.getV x).getLsbD b = ((Config.randomByte s.draws).getLsbD b && nn.getLsbD b)) ∧
    (∀ b, nn.getLsbD b = false → (t.getV x).getLsbD b = false) ∧
    (nn = 0xFF#8 → t.getV x = Config.randomByte s.draws) ∧
    (∀ r, r ≠ x → t.getV r = s.getV r) ∧
    t = { s with v := t.v, pc := s.pc + 2#16, draws := s.draws + 1 } ∧ s.SameMemory t

/-- R21, R181: an instruction changes no V register but the ones the spec says it writes; VF in particular changes only by the
six flag writers or as a named destination. -/
def Obligations.OnlyNamedRegistersWritten : Prop :=
  ∀ (i : Instr) (s t : State) (r : Nibble), exec i s = .next t → writesV i r = false → t.getV r = s.getV r

/-! ## The index-register and memory family (44_index_memory.md) -/

/-- R200, R201, R202: the writes of I: NNN; I + V[X] modulo 4096; 5 * V[X]; no flag, nothing else. -/
def Obligations.IndexWrites : Prop :=
  ∀ (s : State) (x : Nibble) (nnn : Addr),
    (∃ t, exec (.ldI nnn) s = .next t ∧ t.index.toNat = nnn.toNat ∧
      t = { s with index := t.index, pc := s.pc + 2#16 } ∧ s.SameMemory t) ∧
    (∃ t, exec (.addI x) s = .next t ∧ t.index.toNat = (s.index.toNat + (s.getV x).toNat) % 4096 ∧
      t = { s with index := t.index, pc := s.pc + 2#16 } ∧ s.SameMemory t) ∧
    (∃ t, exec (.ldF x) s = .next t ∧ t.index.toNat = (s.getV x).toNat * 5 ∧
      t = { s with index := t.index, pc := s.pc + 2#16 } ∧ s.SameMemory t)

/-- R203, R55: LD B stores the hundreds, tens and ones digit of V[X] at I, I + 1 and I + 2, each modulo 4096, and changes no
other byte. -/
def Obligations.BcdStoresDigits : Prop :=
  ∀ (s : State) (x : Nibble), ∃ t, exec (.ldB x) s = .next t ∧
    (t.readByte (BitVec.ofNat 12 s.index.toNat)).toNat = (s.getV x).toNat / 100 ∧
    (t.readByte (BitVec.ofNat 12 (s.index.toNat + 1))).toNat = (s.getV x).toNat / 10 % 10 ∧
    (t.readByte (BitVec.ofNat 12 (s.index.toNat + 2))).toNat = (s.getV x).toNat % 10 ∧
    t.pc = s.pc + 2#16 ∧
    s.StoreFrame t (fun a => ∃ k, k < 3 ∧ a = BitVec.ofNat 12 (s.index.toNat + k))

/-- R204, R55: LD [I], Vx stores V0 to V[X] at I to I + X, each address modulo 4096, and changes no other byte; I is
unchanged. -/
def Obligations.StoreRegistersAtIndex : Prop :=
  ∀ (s : State) (x : Nibble), ∃ t, exec (.ldMemVx x) s = .next t ∧
    (∀ k, k ≤ x.toNat → t.readByte (BitVec.ofNat 12 (s.index.toNat + k)) = s.getV (BitVec.ofNat 4 k)) ∧
    t.pc = s.pc + 2#16 ∧
    s.StoreFrame t (fun a => ∃ k, k ≤ x.toNat ∧ a = BitVec.ofNat 12 (s.index.toNat + k))

/-- R205, R55: LD Vx, [I] loads V0 to V[X] from I to I + X, each address modulo 4096; registers above X, I and memory are
unchanged. -/
def Obligations.LoadRegistersAtIndex : Prop :=
  ∀ (s : State) (x : Nibble), ∃ t, exec (.ldVxMem x) s = .next t ∧
    (∀ k, k ≤ x.toNat → t.getV (BitVec.ofNat 4 k) = s.readByte (BitVec.ofNat 12 (s.index.toNat + k))) ∧
    t.pc = s.pc + 2#16 ∧ s.RegisterFrame t (fun r => r.toNat ≤ x.toNat)

/-- R65, R312: fetch sees a store at once: after LD [I], Vx, a fetch at I + k, in bounds, reads the opcode whose bytes are V[k]
and V[k + 1]. R65 is an inference of the spec. -/
def Obligations.StoredCodeIsFetched : Prop :=
  ∀ (s t u : State) (x : Nibble) (k : Nat), exec (.ldMemVx x) s = .next t → k + 1 ≤ x.toNat →
    u = { t with pc := u.pc } → u.pc.toNat = s.index.toNat + k → u.pc.toNat + 1 ≤ 0xFFF →
    u.fetchWord.toNat = (s.getV (BitVec.ofNat 4 k)).toNat * 256 + (s.getV (BitVec.ofNat 4 (k + 1))).toNat

/-! ## Timers and keys (45_timer_input.md) -/

/-- R238, R239: LD DT, Vx and LD ST, Vx write the timer as given and nothing else; tAcc is unchanged; after LD ST the sound query
answers whether the value written is not 0, which is the spec's own decision D19 (R276, log 16). -/
def Obligations.TimerWrites : Prop :=
  ∀ (s : State) (x : Nibble),
    (∃ t, exec (.ldDtVx x) s = .next t ∧ t.dt = s.getV x ∧
      t = { s with dt := t.dt, pc := s.pc + 2#16 } ∧ s.SameMemory t) ∧
    (∃ t, exec (.ldStVx x) s = .next t ∧ t.st = s.getV x ∧
      t = { s with st := t.st, pc := s.pc + 2#16 } ∧ s.SameMemory t ∧
      ∃ b, transact .soundTimerActive t = .next (.answer b, t) ∧ (b = true ↔ (s.getV x).toNat ≠ 0))

/-- R234: LD Vx, K enters the key wait for V[X] with no captured key and advances PC; V[X] is unchanged, and the next step is
blocked even if keys are held. That PC advances when the wait is entered is the spec's own decision D6 (log 13),
and that a key already held does not end the wait its decision D7 (R236, log 14). -/
def Obligations.KeyWaitEntered : Prop :=
  ∀ (s : State) (x : Nibble), ∃ t, exec (.ldVxK x) s = .next t ∧
    t.awaitingKey = true ∧ t.awaitReg = x ∧ t.pendingKey = none ∧
    t = { s with awaitingKey := t.awaitingKey, awaitReg := t.awaitReg, pendingKey := t.pendingKey, pc := s.pc + 2#16 } ∧
    s.SameMemory t ∧ (s.status = .running → step t = .next t)

/-! ## The host operations (60_exceptions.md, 70_reset_and_hazards.md) -/

/-- R275, R274: tickTimers applies k ticks, k the number of periods the accumulated time exceeds, each taking 1 from every
counter above 0; at most one period remains; nothing else changes. The accumulator and its catch-up are the spec's own decision D17
(log 17). -/
def Obligations.TickTimersCatchesUp : Prop :=
  ∀ (s : State) (ms : Nat), ∃ t k, transact (.tickTimers ms) s = .next (.done, t) ∧
    ((s.tAcc + 3 * ms ≤ 50 ∧ k = 0) ∨ (50 * k < s.tAcc + 3 * ms ∧ s.tAcc + 3 * ms ≤ 50 * (k + 1))) ∧
    t.tAcc + 50 * k = s.tAcc + 3 * ms ∧ t.tAcc ≤ 50 ∧
    t.dt.toNat = s.dt.toNat - k ∧ t.st.toNat = s.st.toNat - k ∧
    t = { s with tAcc := t.tAcc, dt := t.dt, st := t.st } ∧ s.SameMemory t

/-- R280, R236: setKey in 0..15 writes that latch bit and captures the first press of a wait, and nothing else; an index
outside is refused. The capture of the first press and the refusal are the spec's own decisions D7 and D22 (logs 14, 20). -/
def Obligations.SetKeyLatchesAndCaptures : Prop :=
  ∀ (s : State) (k : Nat) (pressed : Bool),
    (k < 16 → ∃ t, transact (.setKey k pressed) s = .next (.done, t) ∧
      t.keyBit (BitVec.ofNat 4 k) = pressed ∧ (∀ j : Nibble, j.toNat ≠ k → t.keyBit j = s.keyBit j) ∧
      ((pressed = true ∧ s.awaitingKey = true ∧ s.pendingKey = none) → t.pendingKey = some (BitVec.ofNat 4 k)) ∧
      (¬ (pressed = true ∧ s.awaitingKey = true ∧ s.pendingKey = none) → t.pendingKey = s.pendingKey) ∧
      t = { s with key := t.key, pendingKey := t.pendingKey }) ∧
    (16 ≤ k → transact (.setKey k pressed) s = .refused (.keyIndexOutOfRange k))

/-- R281, R282, R276: the framebuffer and sound ports: the dirty query and the sound query change nothing; the consume call
returns the whole grid and clears dirty, so that a query after it answers false. That consuming clears dirty and what the sound
query answers are the spec's own decisions D15 and D19 (log 16). -/
def Obligations.HostPortsAnswer : Prop :=
  ∀ s : State,
    (∃ b, transact .isFramebufferDirty s = .next (.answer b, s) ∧ b = s.dirty) ∧
    (∃ t g, transact .consumeFramebuffer s = .next (.grid g, t) ∧ (∀ x y, pixel g x y = pixel s.fb x y) ∧
      t = { s with dirty := false } ∧ transact .isFramebufferDirty t = .next (.answer false, t)) ∧
    (∃ b, transact .soundTimerActive s = .next (.answer b, s) ∧ (b = true ↔ s.st.toNat ≠ 0))

/-- R302: load writes the bytes from 0x200 up and nothing else, in any status; more than 3584 bytes are rejected with the
count, nothing changed. That load runs in any status is the spec's own decision D25 (log 21). -/
def Obligations.LoadWritesProgram : Prop :=
  ∀ (s : State) (bytes : List Byte),
    (bytes.length ≤ 3584 → ∃ t, transact (.load bytes) s = .next (.loaded, t) ∧
      (∀ j (h : j < bytes.length), t.readByte (BitVec.ofNat 12 (0x200 + j)) = bytes[j]'h) ∧
      (∀ a : Addr, a.toNat < 0x200 ∨ 0x200 + bytes.length ≤ a.toNat → t.readByte a = s.readByte a) ∧
      t = { s with mem := t.mem }) ∧
    (3584 < bytes.length → transact (.load bytes) s = .next (.programTooLarge bytes.length, s))

/-- R301, R67: reset() restores the font bytes and keeps every other byte, zeroes registers, stack, timers and key wait, sets PC
to 0x200 and status to Running, and keeps the latch, the framebuffer and dirty. The scope of reset() is the spec's own decision D21
(log 19). -/
def Obligations.ResetRestoresCore : Prop :=
  ∀ s : State, ∃ t, transact .reset s = .next (.done, t) ∧
    (∀ a : Addr, ∀ h : a.toNat < 80, t.readByte a = s.cfg.font[a.toNat]'h) ∧
    (∀ a : Addr, 80 ≤ a.toNat → t.readByte a = s.readByte a) ∧
    (∀ r, t.getV r = 0#8) ∧ t.index = 0#16 ∧ t.pc.toNat = 0x200 ∧ t.sp.val = 0 ∧
    (∀ j (h : j < 16), t.stack[j]'h = 0#16) ∧ t.dt = 0#8 ∧ t.st = 0#8 ∧ t.tAcc = 0 ∧
    t.awaitingKey = false ∧ t.awaitReg = 0#4 ∧ t.pendingKey = none ∧ t.status = .running ∧
    t.key = s.key ∧ t.fb = s.fb ∧ t.dirty = s.dirty ∧ t.cfg = s.cfg

/-- R300, R40, R67: construct() leaves FONT at 0x000..0x04F, 0 in every other byte, every register, pixel and key zero or false,
PC 0x200, no wait, status Running, from any state and whatever FONT is; `State.reset` is such a state. What "zeroed state" covers
is the spec's own decision D26 (log 24); that `State.reset` is the constructed machine is the model's choice (log 1). -/
def Obligations.ConstructBuildsZeroedState : Prop :=
  ∀ s : State, ∃ t, transact .construct s = .next (.done, t) ∧
    (∀ a : Addr, ∀ h : a.toNat < 80, t.readByte a = s.cfg.font[a.toNat]'h) ∧
    (∀ a : Addr, 80 ≤ a.toNat → t.readByte a = 0#8) ∧
    (∀ r, t.getV r = 0#8) ∧ t.index = 0#16 ∧ t.pc.toNat = 0x200 ∧ t.sp.val = 0 ∧
    (∀ j (h : j < 16), t.stack[j]'h = 0#16) ∧ t.dt = 0#8 ∧ t.st = 0#8 ∧ t.tAcc = 0 ∧
    (∀ k, t.keyBit k = false) ∧ t.awaitingKey = false ∧ t.awaitReg = 0#4 ∧ t.pendingKey = none ∧
    (∀ x y, pixel t.fb x y = false) ∧ t.dirty = false ∧ t.status = .running ∧
    State.reset = { t with cfg := State.reset.cfg, draws := State.reset.draws }

/-! ## Whole-machine rules -/

/-- R41, an inference of the spec: the invariants hold of a freshly constructed machine, whatever its parameters, and of
`State.reset`. -/
def Obligations.InvAtReset : Prop :=
  State.reset.Inv ∧ State.reset.TimeKept ∧ ∀ cfg draws, (State.construct cfg draws).Inv ∧ (State.construct cfg draws).TimeKept

/-- R41, R206, inferences of the spec: every step from a state with the invariants leaves a state with them: I at most 0xFFF, PC
at most 0x10FE, every stack entry at most 0x1000, a captured key only in a wait, a wait only while running, memory canonical. -/
def Obligations.StepKeepsInv : Prop :=
  ∀ s t : State, s.Inv → step s = .next t → t.Inv

/-- R41, an inference of the spec: every host operation keeps the invariants. -/
def Obligations.HostOperationKeepsInv : Prop :=
  ∀ (op : HostOp) (s t : State) (r : HostResult), s.Inv → transact op s = .next (r, t) → t.Inv

/-- R41, an inference of the spec: in every state reachable from construct() by any sequence of host operations the invariants
hold, SP is at most 16, the timers are bytes and at most one period of time is accumulated. -/
def Obligations.ReachableStatesKeepInv : Prop :=
  ∀ s : State, s.Reachable → s.Inv ∧ s.sp.val ≤ 16 ∧ s.dt.toNat ≤ 255 ∧ s.st.toNat ≤ 255 ∧ s.TimeKept

/-- R278, R274: no step ticks: tAcc never changes in a step, DT only by LD DT, Vx and ST only by LD ST, Vx. That only tickTimers
ticks is the spec's own decision D18 (log 18). -/
def Obligations.StepNeverTicks : Prop :=
  ∀ s t : State, step s = .next t → t.tAcc = s.tAcc ∧
    (t.dt ≠ s.dt → ∃ x, decode s.fetchWord = .ok (.ldDtVx x)) ∧
    (t.st ≠ s.st → ∃ x, decode s.fetchWord = .ok (.ldStVx x))

/-- R50, R57: in a step only LD B and LD [I], Vx write memory. -/
def Obligations.OnlyStoresWriteMemory : Prop :=
  ∀ s t : State, step s = .next t → ¬ s.SameMemory t →
    ∃ x, decode s.fetchWord = .ok (.ldB x) ∨ decode s.fetchWord = .ok (.ldMemVx x)

/-- R33, R34, R313: in a step only CLS and DRW change the framebuffer, both then leave dirty set, and no step clears dirty. -/
def Obligations.FramebufferOnlyByDisplay : Prop :=
  ∀ s t : State, step s = .next t →
    (s.dirty = true → t.dirty = true) ∧
    (t.fb ≠ s.fb ∨ t.dirty ≠ s.dirty →
      t.dirty = true ∧ (decode s.fetchWord = .ok .cls ∨ ∃ x y n, decode s.fetchWord = .ok (.drw x y n)))

/-- R38, R28, R29, R34: a step never reads ST, tAcc or dirty: a step from a state that differs only in them gives the same next
state but for them. -/
def Obligations.StepIgnoresHostOnlyState : Prop :=
  ∀ (s t : State) (st : Byte) (tAcc : Nat) (dirty : Bool), step s = .next t →
    ∃ u, step { s with st := st, tAcc := tAcc, dirty := dirty } = .next u ∧
      u = { t with st := u.st, tAcc := u.tAcc, dirty := u.dirty }

/-- R264, R266: once halted, every host operation but reset() and construct() leaves the status as it is; reset() makes it
Running with PC at 0x200. That a step of a halted core is inert and load is allowed are the spec's own decisions D16 and D25
(logs 7, 21). -/
def Obligations.HaltLeftOnlyByReset : Prop :=
  ∀ (s : State) (e : FatalError), s.status = .halted e →
    (∀ (op : HostOp) (r : HostResult) (t : State), op ≠ .reset → op ≠ .construct →
      transact op s = .next (r, t) → t.status = .halted e) ∧
    ∃ t, transact .reset s = .next (.done, t) ∧ t.status = .running ∧ t.pc.toNat = 0x200

/-- R36 (c), R182 (logs 2, 6, the model's own fields): no host operation changes the parameters, and only RND draws from the oracle,
one byte each. -/
def Obligations.ParametersFixedAndDrawsCounted : Prop :=
  (∀ (op : HostOp) (s t : State) (r : HostResult), transact op s = .next (r, t) → t.cfg = s.cfg) ∧
  ∀ s t : State, step s = .next t →
    t.draws = s.draws ∨ (t.draws = s.draws + 1 ∧ ∃ x nn, decode s.fetchWord = .ok (.rnd x nn))
end

