-- ==== Sys2Proof/Laws/Encoding.lean ====
section
/-! SUPPORT. The formats of 30_encoding.md R72 as arithmetic: the fields of a word laid out in each format, and what
the masks of R75 keep of a word. -/
namespace Sys2Proof

/-- Format NNN. -/
theorem toNat_formatNNN (f : Nibble) (nnn : Addr) :
    (f ++ nnn : Word).toNat = f.toNat * 4096 + nnn.toNat := by
  rw [BitVec.toNat_append, ← Nat.shiftLeft_add_eq_or_of_lt nnn.isLt, Nat.shiftLeft_eq]

/-- Formats XNN and Xnn. -/
theorem toNat_formatXNN (f x : Nibble) (nn : Byte) :
    (f ++ x ++ nn : Word).toNat = f.toNat * 4096 + x.toNat * 256 + nn.toNat := by
  rw [BitVec.toNat_append, ← Nat.shiftLeft_add_eq_or_of_lt nn.isLt, Nat.shiftLeft_eq, BitVec.toNat_append,
    ← Nat.shiftLeft_add_eq_or_of_lt x.isLt, Nat.shiftLeft_eq]
  omega

/-- Formats XY0, XYn and XYN. -/
theorem toNat_formatXYN (f x y n : Nibble) :
    (f ++ x ++ y ++ n : Word).toNat = f.toNat * 4096 + x.toNat * 256 + y.toNat * 16 + n.toNat := by
  rw [BitVec.toNat_append, ← Nat.shiftLeft_add_eq_or_of_lt n.isLt, Nat.shiftLeft_eq, BitVec.toNat_append,
    ← Nat.shiftLeft_add_eq_or_of_lt y.isLt, Nat.shiftLeft_eq, BitVec.toNat_append,
    ← Nat.shiftLeft_add_eq_or_of_lt x.isLt, Nat.shiftLeft_eq]
  omega

theorem fieldFamily_toNat (w : Word) : (fieldFamily w).toNat = w.toNat / 4096 := by
  have := w.isLt
  simp only [fieldFamily, BitVec.extractLsb'_toNat, Nat.shiftRight_eq_div_pow]
  omega

theorem fieldX_toNat (w : Word) : (fieldX w).toNat = w.toNat / 256 % 16 := by
  simp only [fieldX, BitVec.extractLsb'_toNat, Nat.shiftRight_eq_div_pow]

theorem fieldY_toNat (w : Word) : (fieldY w).toNat = w.toNat / 16 % 16 := by
  simp only [fieldY, BitVec.extractLsb'_toNat, Nat.shiftRight_eq_div_pow]

theorem fieldN_toNat (w : Word) : (fieldN w).toNat = w.toNat % 16 := by
  simp only [fieldN, BitVec.extractLsb'_toNat, Nat.shiftRight_zero]

theorem fieldNN_toNat (w : Word) : (fieldNN w).toNat = w.toNat % 256 := by
  simp only [fieldNN, BitVec.extractLsb'_toNat, Nat.shiftRight_zero]

theorem fieldNNN_toNat (w : Word) : (fieldNNN w).toNat = w.toNat % 4096 := by
  simp only [fieldNNN, BitVec.extractLsb'_toNat, Nat.shiftRight_zero]

section Fields
variable (f x y n : Nibble) (nn : Byte) (nnn : Addr)

@[simp] theorem family_formatNNN : fieldFamily (f ++ nnn : Word) = f := by
  apply BitVec.eq_of_toNat_eq
  have := nnn.isLt
  rw [fieldFamily_toNat, toNat_formatNNN]; omega

@[simp] theorem nnn_formatNNN : fieldNNN (f ++ nnn : Word) = nnn := by
  apply BitVec.eq_of_toNat_eq
  have := nnn.isLt
  rw [fieldNNN_toNat, toNat_formatNNN]; omega

@[simp] theorem family_formatXNN : fieldFamily (f ++ x ++ nn : Word) = f := by
  apply BitVec.eq_of_toNat_eq
  have := nn.isLt; have := x.isLt
  rw [fieldFamily_toNat, toNat_formatXNN]; omega

@[simp] theorem x_formatXNN : fieldX (f ++ x ++ nn : Word) = x := by
  apply BitVec.eq_of_toNat_eq
  have := nn.isLt; have := x.isLt
  rw [fieldX_toNat, toNat_formatXNN]; omega

@[simp] theorem nn_formatXNN : fieldNN (f ++ x ++ nn : Word) = nn := by
  apply BitVec.eq_of_toNat_eq
  have := nn.isLt
  rw [fieldNN_toNat, toNat_formatXNN]; omega

@[simp] theorem family_formatXYN : fieldFamily (f ++ x ++ y ++ n : Word) = f := by
  apply BitVec.eq_of_toNat_eq
  have := x.isLt; have := y.isLt; have := n.isLt
  rw [fieldFamily_toNat, toNat_formatXYN]; omega

@[simp] theorem x_formatXYN : fieldX (f ++ x ++ y ++ n : Word) = x := by
  apply BitVec.eq_of_toNat_eq
  have := x.isLt; have := y.isLt; have := n.isLt
  rw [fieldX_toNat, toNat_formatXYN]; omega

@[simp] theorem y_formatXYN : fieldY (f ++ x ++ y ++ n : Word) = y := by
  apply BitVec.eq_of_toNat_eq
  have := y.isLt; have := n.isLt
  rw [fieldY_toNat, toNat_formatXYN]; omega

@[simp] theorem n_formatXYN : fieldN (f ++ x ++ y ++ n : Word) = n := by
  apply BitVec.eq_of_toNat_eq
  have := n.isLt
  rw [fieldN_toNat, toNat_formatXYN]; omega

end Fields

/-! ## What the masks of R75 keep -/

/-- The mask 0xF000 keeps the family. -/
theorem and_maskF000 (w : Word) : w &&& 0xF000#16 = fieldFamily w ++ 0#12 := by
  have key : ∀ i, i < 16 → (0xF000#16).getLsbD i = decide (12 ≤ i) := by decide
  apply BitVec.eq_of_getLsbD_eq
  intro i hi
  simp only [fieldFamily, BitVec.getLsbD_and, key i hi, BitVec.getLsbD_append, BitVec.getLsbD_extractLsb',
    BitVec.getLsbD_zero]
  by_cases h : i < 12
  · simp [h, Nat.not_le.mpr h]
  · have : i - 12 < 4 := by omega
    have : 12 + (i - 12) = i := by omega
    simp [Nat.le_of_not_lt h, *]

/-- The mask 0xF00F keeps the family and the low nibble. -/
theorem and_maskF00F (w : Word) : w &&& 0xF00F#16 = fieldFamily w ++ 0#8 ++ fieldN w := by
  have key : ∀ i, i < 16 → (0xF00F#16).getLsbD i = (decide (12 ≤ i) || decide (i < 4)) := by decide
  apply BitVec.eq_of_getLsbD_eq
  intro i hi
  simp only [fieldFamily, fieldN, BitVec.getLsbD_and, key i hi, BitVec.getLsbD_append,
    BitVec.getLsbD_extractLsb', BitVec.getLsbD_zero]
  by_cases h4 : i < 4
  · simp [h4]
  · by_cases h : i < 12
    · have : i - 4 < 8 := by omega
      simp [h4, Nat.not_le.mpr h, this]
    · have : ¬ i - 4 < 8 := by omega
      have : i - 4 - 8 < 4 := by omega
      have : 12 + (i - 4 - 8) = i := by omega
      simp [Nat.le_of_not_lt h, *]

/-- The mask 0xF0FF keeps the family and the low byte. -/
theorem and_maskF0FF (w : Word) : w &&& 0xF0FF#16 = fieldFamily w ++ 0#4 ++ fieldNN w := by
  have key : ∀ i, i < 16 → (0xF0FF#16).getLsbD i = (decide (12 ≤ i) || decide (i < 8)) := by decide
  apply BitVec.eq_of_getLsbD_eq
  intro i hi
  simp only [fieldFamily, fieldNN, BitVec.getLsbD_and, key i hi, BitVec.getLsbD_append,
    BitVec.getLsbD_extractLsb', BitVec.getLsbD_zero]
  by_cases h4 : i < 8
  · simp [h4]
  · by_cases h : i < 12
    · have : i - 8 < 4 := by omega
      simp [h4, Nat.not_le.mpr h, this]
    · have : ¬ i - 8 < 4 := by omega
      have : i - 8 - 4 < 4 := by omega
      have : 12 + (i - 8 - 4) = i := by omega
      simp [Nat.le_of_not_lt h, *]

end Sys2Proof
end

