-- ==== Sys2Proof/Laws/Memory.lean ====
section
/-! SUPPORT. The laws of memory as a list: a read after a write, and that every operation keeps the
canonical form. The read laws hold for every list, canonical or not. -/
namespace Sys2Proof.Machine

variable {d : Nat → Byte} {m : List Host.Cell} {a b : Nat} {v : Byte}

theorem read_insert_same (h : ∀ c ∈ m, c.1 ≠ a) : Memory.read d (Memory.insert a v m) a = v := by
  induction m with
  | nil => simp [Memory.insert, Memory.read]
  | cons c rest ih =>
    have hc : c.1 ≠ a := h c (by simp)
    unfold Memory.insert
    split
    · simp [Memory.read]
    · simp only [Memory.read, hc, if_false]
      exact ih (fun e he => h e (by simp [he]))

theorem read_insert_other (h : b ≠ a) : Memory.read d (Memory.insert a v m) b = Memory.read d m b := by
  induction m with
  | nil => simp [Memory.insert, Memory.read, h.symm]
  | cons c rest ih =>
    unfold Memory.insert
    split
    · simp [Memory.read, h.symm]
    · simp only [Memory.read, ih]

theorem erase_not_mem : ∀ c ∈ Memory.erase a m, c.1 ≠ a := by
  intro c hc
  simpa [Memory.erase] using (List.mem_filter.mp hc).2

theorem read_of_not_mem (h : ∀ c ∈ m, c.1 ≠ a) : Memory.read d m a = d a := by
  induction m with
  | nil => rfl
  | cons c rest ih =>
    simp only [Memory.read, h c (by simp), if_false]
    exact ih (fun e he => h e (by simp [he]))

theorem read_erase_other (h : b ≠ a) : Memory.read d (Memory.erase a m) b = Memory.read d m b := by
  induction m with
  | nil => rfl
  | cons c rest ih =>
    by_cases hc : c.1 = a
    · simp only [Memory.erase, List.filter_cons, hc, bne_self_eq_false, Bool.false_eq_true, if_false,
        Memory.read, h.symm]
      exact ih
    · have : (c.1 != a) = true := by simpa using hc
      simp only [Memory.erase, List.filter_cons, this, if_true, Memory.read]
      rw [← Memory.erase, ih]

/-- A read of the byte just written gives the value written (R62). -/
theorem read_write_same : Memory.read d (Memory.write d m a v) a = v := by
  unfold Memory.write
  split
  · rename_i h
    rw [read_of_not_mem erase_not_mem, h]
  · exact read_insert_same erase_not_mem

/-- A write changes only the byte written (R57). -/
theorem read_write_other (h : b ≠ a) : Memory.read d (Memory.write d m a v) b = Memory.read d m b := by
  unfold Memory.write
  split
  · exact read_erase_other h
  · rw [read_insert_other h, read_erase_other h]

theorem mem_insert {c : Host.Cell} : c ∈ Memory.insert a v m ↔ c = (a, v) ∨ c ∈ m := by
  induction m with
  | nil => simp [Memory.insert]
  | cons e rest ih =>
    unfold Memory.insert
    split
    · simp
    · simp only [List.mem_cons, ih]
      constructor
      · rintro (h | h | h) <;> simp [h]
      · rintro (h | h | h) <;> simp [h]

theorem insert_pairwise (hm : m.Pairwise (fun c e => c.1 < e.1)) (h : ∀ c ∈ m, c.1 ≠ a) :
    (Memory.insert a v m).Pairwise (fun c e => c.1 < e.1) := by
  induction m with
  | nil => simp [Memory.insert]
  | cons c rest ih =>
    have hrest := List.pairwise_cons.mp hm
    unfold Memory.insert
    split
    · rename_i hlt
      refine List.pairwise_cons.mpr ⟨fun e he => ?_, hm⟩
      rcases List.mem_cons.mp he with rfl | he
      · exact hlt
      · exact Nat.lt_trans hlt (hrest.1 e he)
    · rename_i hlt
      have hc : c.1 ≠ a := h c (by simp)
      refine List.pairwise_cons.mpr ⟨fun e he => ?_, ih hrest.2 (fun e he => h e (by simp [he]))⟩
      rcases mem_insert.mp he with rfl | he
      · show c.1 < a
        omega
      · exact hrest.1 e he

theorem filter_wf (p : Host.Cell → Bool) (hm : Memory.wf d m) : Memory.wf d (m.filter p) :=
  ⟨hm.1.sublist List.filter_sublist, fun c hc => hm.2 c (List.mem_filter.mp hc).1⟩

/-- A write keeps the canonical form. -/
theorem write_wf (hm : Memory.wf d m) (ha : a < memSize) : Memory.wf d (Memory.write d m a v) := by
  have he : Memory.wf d (Memory.erase a m) := filter_wf _ hm
  unfold Memory.write
  split
  · exact he
  · rename_i hv
    refine ⟨insert_pairwise he.1 erase_not_mem, fun c hc => ?_⟩
    rcases mem_insert.mp hc with rfl | hc
    · exact ⟨ha, hv⟩
    · exact he.2 c hc

/-- Restoring the font keeps the canonical form. -/
theorem restoreBelow_wf (n : Nat) (hm : Memory.wf d m) : Memory.wf d (Memory.restoreBelow n m) :=
  filter_wf _ hm

/-- The memory of a fresh machine is canonical. -/
theorem nil_wf : Memory.wf d [] := by simp [Memory.wf]

/-- After `restoreBelow n` an address below `n` reads as after `construct()`, and every other as before. -/
theorem read_restoreBelow (n : Nat) :
    Memory.read d (Memory.restoreBelow n m) a = if a < n then d a else Memory.read d m a := by
  induction m with
  | nil => simp [Memory.restoreBelow, Memory.read]
  | cons c rest ih =>
    by_cases hc : n ≤ c.1
    · simp only [Memory.restoreBelow, List.filter_cons, hc, decide_true, if_true, Memory.read]
      rw [← Memory.restoreBelow, ih]
      by_cases hca : c.1 = a
      · subst hca; simp [Nat.not_lt.mpr hc]
      · simp [hca]
    · simp only [Memory.restoreBelow, List.filter_cons, hc, decide_false, Bool.false_eq_true, if_false,
        Memory.read]
      rw [← Memory.restoreBelow, ih]
      by_cases hca : c.1 = a
      · subst hca; simp [Nat.lt_of_not_le hc]
      · simp [hca]

end Sys2Proof.Machine
end

