-- ==== Sys2Proof/Laws/State.lean ====
section
/-! SUPPORT. One lemma per field and update of State, each true by definition, so that no later proof unfolds
a record update. -/
namespace Sys2Proof.Machine

/-! ### `setV` -/

@[simp] theorem setV_v (s : State) (x : Nibble) (b : Byte) : (s.setV x b).v = s.v.set x.toNat b x.isLt := rfl
@[simp] theorem setV_index (s : State) (x : Nibble) (b : Byte) : (s.setV x b).index = s.index := rfl
@[simp] theorem setV_pc (s : State) (x : Nibble) (b : Byte) : (s.setV x b).pc = s.pc := rfl
@[simp] theorem setV_sp (s : State) (x : Nibble) (b : Byte) : (s.setV x b).sp = s.sp := rfl
@[simp] theorem setV_stack (s : State) (x : Nibble) (b : Byte) : (s.setV x b).stack = s.stack := rfl
@[simp] theorem setV_dt (s : State) (x : Nibble) (b : Byte) : (s.setV x b).dt = s.dt := rfl
@[simp] theorem setV_st (s : State) (x : Nibble) (b : Byte) : (s.setV x b).st = s.st := rfl
@[simp] theorem setV_tAcc (s : State) (x : Nibble) (b : Byte) : (s.setV x b).tAcc = s.tAcc := rfl
@[simp] theorem setV_key (s : State) (x : Nibble) (b : Byte) : (s.setV x b).key = s.key := rfl
@[simp] theorem setV_awaitingKey (s : State) (x : Nibble) (b : Byte) : (s.setV x b).awaitingKey = s.awaitingKey := rfl
@[simp] theorem setV_awaitReg (s : State) (x : Nibble) (b : Byte) : (s.setV x b).awaitReg = s.awaitReg := rfl
@[simp] theorem setV_pendingKey (s : State) (x : Nibble) (b : Byte) : (s.setV x b).pendingKey = s.pendingKey := rfl
@[simp] theorem setV_fb (s : State) (x : Nibble) (b : Byte) : (s.setV x b).fb = s.fb := rfl
@[simp] theorem setV_dirty (s : State) (x : Nibble) (b : Byte) : (s.setV x b).dirty = s.dirty := rfl
@[simp] theorem setV_status (s : State) (x : Nibble) (b : Byte) : (s.setV x b).status = s.status := rfl
@[simp] theorem setV_mem (s : State) (x : Nibble) (b : Byte) : (s.setV x b).mem = s.mem := rfl
@[simp] theorem setV_cfg (s : State) (x : Nibble) (b : Byte) : (s.setV x b).cfg = s.cfg := rfl
@[simp] theorem setV_draws (s : State) (x : Nibble) (b : Byte) : (s.setV x b).draws = s.draws := rfl

/-! ### `setIndex` -/

@[simp] theorem setIndex_v (s : State) (w : Word) : (s.setIndex w).v = s.v := rfl
@[simp] theorem setIndex_index (s : State) (w : Word) : (s.setIndex w).index = w := rfl
@[simp] theorem setIndex_pc (s : State) (w : Word) : (s.setIndex w).pc = s.pc := rfl
@[simp] theorem setIndex_sp (s : State) (w : Word) : (s.setIndex w).sp = s.sp := rfl
@[simp] theorem setIndex_stack (s : State) (w : Word) : (s.setIndex w).stack = s.stack := rfl
@[simp] theorem setIndex_dt (s : State) (w : Word) : (s.setIndex w).dt = s.dt := rfl
@[simp] theorem setIndex_st (s : State) (w : Word) : (s.setIndex w).st = s.st := rfl
@[simp] theorem setIndex_tAcc (s : State) (w : Word) : (s.setIndex w).tAcc = s.tAcc := rfl
@[simp] theorem setIndex_key (s : State) (w : Word) : (s.setIndex w).key = s.key := rfl
@[simp] theorem setIndex_awaitingKey (s : State) (w : Word) : (s.setIndex w).awaitingKey = s.awaitingKey := rfl
@[simp] theorem setIndex_awaitReg (s : State) (w : Word) : (s.setIndex w).awaitReg = s.awaitReg := rfl
@[simp] theorem setIndex_pendingKey (s : State) (w : Word) : (s.setIndex w).pendingKey = s.pendingKey := rfl
@[simp] theorem setIndex_fb (s : State) (w : Word) : (s.setIndex w).fb = s.fb := rfl
@[simp] theorem setIndex_dirty (s : State) (w : Word) : (s.setIndex w).dirty = s.dirty := rfl
@[simp] theorem setIndex_status (s : State) (w : Word) : (s.setIndex w).status = s.status := rfl
@[simp] theorem setIndex_mem (s : State) (w : Word) : (s.setIndex w).mem = s.mem := rfl
@[simp] theorem setIndex_cfg (s : State) (w : Word) : (s.setIndex w).cfg = s.cfg := rfl
@[simp] theorem setIndex_draws (s : State) (w : Word) : (s.setIndex w).draws = s.draws := rfl

/-! ### `setPc` -/

@[simp] theorem setPc_v (s : State) (w : Word) : (s.setPc w).v = s.v := rfl
@[simp] theorem setPc_index (s : State) (w : Word) : (s.setPc w).index = s.index := rfl
@[simp] theorem setPc_pc (s : State) (w : Word) : (s.setPc w).pc = w := rfl
@[simp] theorem setPc_sp (s : State) (w : Word) : (s.setPc w).sp = s.sp := rfl
@[simp] theorem setPc_stack (s : State) (w : Word) : (s.setPc w).stack = s.stack := rfl
@[simp] theorem setPc_dt (s : State) (w : Word) : (s.setPc w).dt = s.dt := rfl
@[simp] theorem setPc_st (s : State) (w : Word) : (s.setPc w).st = s.st := rfl
@[simp] theorem setPc_tAcc (s : State) (w : Word) : (s.setPc w).tAcc = s.tAcc := rfl
@[simp] theorem setPc_key (s : State) (w : Word) : (s.setPc w).key = s.key := rfl
@[simp] theorem setPc_awaitingKey (s : State) (w : Word) : (s.setPc w).awaitingKey = s.awaitingKey := rfl
@[simp] theorem setPc_awaitReg (s : State) (w : Word) : (s.setPc w).awaitReg = s.awaitReg := rfl
@[simp] theorem setPc_pendingKey (s : State) (w : Word) : (s.setPc w).pendingKey = s.pendingKey := rfl
@[simp] theorem setPc_fb (s : State) (w : Word) : (s.setPc w).fb = s.fb := rfl
@[simp] theorem setPc_dirty (s : State) (w : Word) : (s.setPc w).dirty = s.dirty := rfl
@[simp] theorem setPc_status (s : State) (w : Word) : (s.setPc w).status = s.status := rfl
@[simp] theorem setPc_mem (s : State) (w : Word) : (s.setPc w).mem = s.mem := rfl
@[simp] theorem setPc_cfg (s : State) (w : Word) : (s.setPc w).cfg = s.cfg := rfl
@[simp] theorem setPc_draws (s : State) (w : Word) : (s.setPc w).draws = s.draws := rfl

/-! ### `advance` -/

@[simp] theorem advance_v (s : State) : (s.advance).v = s.v := rfl
@[simp] theorem advance_index (s : State) : (s.advance).index = s.index := rfl
@[simp] theorem advance_pc (s : State) : (s.advance).pc = s.pc + 2#16 := rfl
@[simp] theorem advance_sp (s : State) : (s.advance).sp = s.sp := rfl
@[simp] theorem advance_stack (s : State) : (s.advance).stack = s.stack := rfl
@[simp] theorem advance_dt (s : State) : (s.advance).dt = s.dt := rfl
@[simp] theorem advance_st (s : State) : (s.advance).st = s.st := rfl
@[simp] theorem advance_tAcc (s : State) : (s.advance).tAcc = s.tAcc := rfl
@[simp] theorem advance_key (s : State) : (s.advance).key = s.key := rfl
@[simp] theorem advance_awaitingKey (s : State) : (s.advance).awaitingKey = s.awaitingKey := rfl
@[simp] theorem advance_awaitReg (s : State) : (s.advance).awaitReg = s.awaitReg := rfl
@[simp] theorem advance_pendingKey (s : State) : (s.advance).pendingKey = s.pendingKey := rfl
@[simp] theorem advance_fb (s : State) : (s.advance).fb = s.fb := rfl
@[simp] theorem advance_dirty (s : State) : (s.advance).dirty = s.dirty := rfl
@[simp] theorem advance_status (s : State) : (s.advance).status = s.status := rfl
@[simp] theorem advance_mem (s : State) : (s.advance).mem = s.mem := rfl
@[simp] theorem advance_cfg (s : State) : (s.advance).cfg = s.cfg := rfl
@[simp] theorem advance_draws (s : State) : (s.advance).draws = s.draws := rfl

/-! ### `skipIf` -/

@[simp] theorem skipIf_v (s : State) (c : Bool) : (s.skipIf c).v = s.v := rfl
@[simp] theorem skipIf_index (s : State) (c : Bool) : (s.skipIf c).index = s.index := rfl
@[simp] theorem skipIf_pc (s : State) (c : Bool) : (s.skipIf c).pc = if c then s.pc + 4#16 else s.pc + 2#16 := rfl
@[simp] theorem skipIf_sp (s : State) (c : Bool) : (s.skipIf c).sp = s.sp := rfl
@[simp] theorem skipIf_stack (s : State) (c : Bool) : (s.skipIf c).stack = s.stack := rfl
@[simp] theorem skipIf_dt (s : State) (c : Bool) : (s.skipIf c).dt = s.dt := rfl
@[simp] theorem skipIf_st (s : State) (c : Bool) : (s.skipIf c).st = s.st := rfl
@[simp] theorem skipIf_tAcc (s : State) (c : Bool) : (s.skipIf c).tAcc = s.tAcc := rfl
@[simp] theorem skipIf_key (s : State) (c : Bool) : (s.skipIf c).key = s.key := rfl
@[simp] theorem skipIf_awaitingKey (s : State) (c : Bool) : (s.skipIf c).awaitingKey = s.awaitingKey := rfl
@[simp] theorem skipIf_awaitReg (s : State) (c : Bool) : (s.skipIf c).awaitReg = s.awaitReg := rfl
@[simp] theorem skipIf_pendingKey (s : State) (c : Bool) : (s.skipIf c).pendingKey = s.pendingKey := rfl
@[simp] theorem skipIf_fb (s : State) (c : Bool) : (s.skipIf c).fb = s.fb := rfl
@[simp] theorem skipIf_dirty (s : State) (c : Bool) : (s.skipIf c).dirty = s.dirty := rfl
@[simp] theorem skipIf_status (s : State) (c : Bool) : (s.skipIf c).status = s.status := rfl
@[simp] theorem skipIf_mem (s : State) (c : Bool) : (s.skipIf c).mem = s.mem := rfl
@[simp] theorem skipIf_cfg (s : State) (c : Bool) : (s.skipIf c).cfg = s.cfg := rfl
@[simp] theorem skipIf_draws (s : State) (c : Bool) : (s.skipIf c).draws = s.draws := rfl

/-! ### `writeByte` -/

@[simp] theorem writeByte_v (s : State) (a : Addr) (b : Byte) : (s.writeByte a b).v = s.v := rfl
@[simp] theorem writeByte_index (s : State) (a : Addr) (b : Byte) : (s.writeByte a b).index = s.index := rfl
@[simp] theorem writeByte_pc (s : State) (a : Addr) (b : Byte) : (s.writeByte a b).pc = s.pc := rfl
@[simp] theorem writeByte_sp (s : State) (a : Addr) (b : Byte) : (s.writeByte a b).sp = s.sp := rfl
@[simp] theorem writeByte_stack (s : State) (a : Addr) (b : Byte) : (s.writeByte a b).stack = s.stack := rfl
@[simp] theorem writeByte_dt (s : State) (a : Addr) (b : Byte) : (s.writeByte a b).dt = s.dt := rfl
@[simp] theorem writeByte_st (s : State) (a : Addr) (b : Byte) : (s.writeByte a b).st = s.st := rfl
@[simp] theorem writeByte_tAcc (s : State) (a : Addr) (b : Byte) : (s.writeByte a b).tAcc = s.tAcc := rfl
@[simp] theorem writeByte_key (s : State) (a : Addr) (b : Byte) : (s.writeByte a b).key = s.key := rfl
@[simp] theorem writeByte_awaitingKey (s : State) (a : Addr) (b : Byte) : (s.writeByte a b).awaitingKey = s.awaitingKey := rfl
@[simp] theorem writeByte_awaitReg (s : State) (a : Addr) (b : Byte) : (s.writeByte a b).awaitReg = s.awaitReg := rfl
@[simp] theorem writeByte_pendingKey (s : State) (a : Addr) (b : Byte) : (s.writeByte a b).pendingKey = s.pendingKey := rfl
@[simp] theorem writeByte_fb (s : State) (a : Addr) (b : Byte) : (s.writeByte a b).fb = s.fb := rfl
@[simp] theorem writeByte_dirty (s : State) (a : Addr) (b : Byte) : (s.writeByte a b).dirty = s.dirty := rfl
@[simp] theorem writeByte_status (s : State) (a : Addr) (b : Byte) : (s.writeByte a b).status = s.status := rfl
@[simp] theorem writeByte_mem (s : State) (a : Addr) (b : Byte) : (s.writeByte a b).mem = Memory.write s.blank s.mem a.toNat b := rfl
@[simp] theorem writeByte_cfg (s : State) (a : Addr) (b : Byte) : (s.writeByte a b).cfg = s.cfg := rfl
@[simp] theorem writeByte_draws (s : State) (a : Addr) (b : Byte) : (s.writeByte a b).draws = s.draws := rfl

/-! ### `setFb` -/

@[simp] theorem setFb_v (s : State) (fb : Framebuffer) : (s.setFb fb).v = s.v := rfl
@[simp] theorem setFb_index (s : State) (fb : Framebuffer) : (s.setFb fb).index = s.index := rfl
@[simp] theorem setFb_pc (s : State) (fb : Framebuffer) : (s.setFb fb).pc = s.pc := rfl
@[simp] theorem setFb_sp (s : State) (fb : Framebuffer) : (s.setFb fb).sp = s.sp := rfl
@[simp] theorem setFb_stack (s : State) (fb : Framebuffer) : (s.setFb fb).stack = s.stack := rfl
@[simp] theorem setFb_dt (s : State) (fb : Framebuffer) : (s.setFb fb).dt = s.dt := rfl
@[simp] theorem setFb_st (s : State) (fb : Framebuffer) : (s.setFb fb).st = s.st := rfl
@[simp] theorem setFb_tAcc (s : State) (fb : Framebuffer) : (s.setFb fb).tAcc = s.tAcc := rfl
@[simp] theorem setFb_key (s : State) (fb : Framebuffer) : (s.setFb fb).key = s.key := rfl
@[simp] theorem setFb_awaitingKey (s : State) (fb : Framebuffer) : (s.setFb fb).awaitingKey = s.awaitingKey := rfl
@[simp] theorem setFb_awaitReg (s : State) (fb : Framebuffer) : (s.setFb fb).awaitReg = s.awaitReg := rfl
@[simp] theorem setFb_pendingKey (s : State) (fb : Framebuffer) : (s.setFb fb).pendingKey = s.pendingKey := rfl
@[simp] theorem setFb_fb (s : State) (fb : Framebuffer) : (s.setFb fb).fb = fb := rfl
@[simp] theorem setFb_dirty (s : State) (fb : Framebuffer) : (s.setFb fb).dirty = true := rfl
@[simp] theorem setFb_status (s : State) (fb : Framebuffer) : (s.setFb fb).status = s.status := rfl
@[simp] theorem setFb_mem (s : State) (fb : Framebuffer) : (s.setFb fb).mem = s.mem := rfl
@[simp] theorem setFb_cfg (s : State) (fb : Framebuffer) : (s.setFb fb).cfg = s.cfg := rfl
@[simp] theorem setFb_draws (s : State) (fb : Framebuffer) : (s.setFb fb).draws = s.draws := rfl

/-! ### `setFlag` -/

@[simp] theorem setFlag_v (s : State) (c : Bool) : (s.setFlag c).v = s.v.set 15 (flagByte c) := rfl
@[simp] theorem setFlag_index (s : State) (c : Bool) : (s.setFlag c).index = s.index := rfl
@[simp] theorem setFlag_pc (s : State) (c : Bool) : (s.setFlag c).pc = s.pc := rfl
@[simp] theorem setFlag_sp (s : State) (c : Bool) : (s.setFlag c).sp = s.sp := rfl
@[simp] theorem setFlag_stack (s : State) (c : Bool) : (s.setFlag c).stack = s.stack := rfl
@[simp] theorem setFlag_dt (s : State) (c : Bool) : (s.setFlag c).dt = s.dt := rfl
@[simp] theorem setFlag_st (s : State) (c : Bool) : (s.setFlag c).st = s.st := rfl
@[simp] theorem setFlag_tAcc (s : State) (c : Bool) : (s.setFlag c).tAcc = s.tAcc := rfl
@[simp] theorem setFlag_key (s : State) (c : Bool) : (s.setFlag c).key = s.key := rfl
@[simp] theorem setFlag_awaitingKey (s : State) (c : Bool) : (s.setFlag c).awaitingKey = s.awaitingKey := rfl
@[simp] theorem setFlag_awaitReg (s : State) (c : Bool) : (s.setFlag c).awaitReg = s.awaitReg := rfl
@[simp] theorem setFlag_pendingKey (s : State) (c : Bool) : (s.setFlag c).pendingKey = s.pendingKey := rfl
@[simp] theorem setFlag_fb (s : State) (c : Bool) : (s.setFlag c).fb = s.fb := rfl
@[simp] theorem setFlag_dirty (s : State) (c : Bool) : (s.setFlag c).dirty = s.dirty := rfl
@[simp] theorem setFlag_status (s : State) (c : Bool) : (s.setFlag c).status = s.status := rfl
@[simp] theorem setFlag_mem (s : State) (c : Bool) : (s.setFlag c).mem = s.mem := rfl
@[simp] theorem setFlag_cfg (s : State) (c : Bool) : (s.setFlag c).cfg = s.cfg := rfl
@[simp] theorem setFlag_draws (s : State) (c : Bool) : (s.setFlag c).draws = s.draws := rfl

/-! ### `raise` -/

@[simp] theorem raise_v (s : State) (e : FatalError) : (s.raise e).v = s.v := rfl
@[simp] theorem raise_index (s : State) (e : FatalError) : (s.raise e).index = s.index := rfl
@[simp] theorem raise_pc (s : State) (e : FatalError) : (s.raise e).pc = s.pc := rfl
@[simp] theorem raise_sp (s : State) (e : FatalError) : (s.raise e).sp = s.sp := rfl
@[simp] theorem raise_stack (s : State) (e : FatalError) : (s.raise e).stack = s.stack := rfl
@[simp] theorem raise_dt (s : State) (e : FatalError) : (s.raise e).dt = s.dt := rfl
@[simp] theorem raise_st (s : State) (e : FatalError) : (s.raise e).st = s.st := rfl
@[simp] theorem raise_tAcc (s : State) (e : FatalError) : (s.raise e).tAcc = s.tAcc := rfl
@[simp] theorem raise_key (s : State) (e : FatalError) : (s.raise e).key = s.key := rfl
@[simp] theorem raise_awaitingKey (s : State) (e : FatalError) : (s.raise e).awaitingKey = s.awaitingKey := rfl
@[simp] theorem raise_awaitReg (s : State) (e : FatalError) : (s.raise e).awaitReg = s.awaitReg := rfl
@[simp] theorem raise_pendingKey (s : State) (e : FatalError) : (s.raise e).pendingKey = s.pendingKey := rfl
@[simp] theorem raise_fb (s : State) (e : FatalError) : (s.raise e).fb = s.fb := rfl
@[simp] theorem raise_dirty (s : State) (e : FatalError) : (s.raise e).dirty = s.dirty := rfl
@[simp] theorem raise_status (s : State) (e : FatalError) : (s.raise e).status = .halted e := rfl
@[simp] theorem raise_mem (s : State) (e : FatalError) : (s.raise e).mem = s.mem := rfl
@[simp] theorem raise_cfg (s : State) (e : FatalError) : (s.raise e).cfg = s.cfg := rfl
@[simp] theorem raise_draws (s : State) (e : FatalError) : (s.raise e).draws = s.draws := rfl

/-! ### `setKeyBit` -/

@[simp] theorem setKeyBit_v (s : State) (k : Nibble) (p : Bool) : (s.setKeyBit k p).v = s.v := rfl
@[simp] theorem setKeyBit_index (s : State) (k : Nibble) (p : Bool) : (s.setKeyBit k p).index = s.index := rfl
@[simp] theorem setKeyBit_pc (s : State) (k : Nibble) (p : Bool) : (s.setKeyBit k p).pc = s.pc := rfl
@[simp] theorem setKeyBit_sp (s : State) (k : Nibble) (p : Bool) : (s.setKeyBit k p).sp = s.sp := rfl
@[simp] theorem setKeyBit_stack (s : State) (k : Nibble) (p : Bool) : (s.setKeyBit k p).stack = s.stack := rfl
@[simp] theorem setKeyBit_dt (s : State) (k : Nibble) (p : Bool) : (s.setKeyBit k p).dt = s.dt := rfl
@[simp] theorem setKeyBit_st (s : State) (k : Nibble) (p : Bool) : (s.setKeyBit k p).st = s.st := rfl
@[simp] theorem setKeyBit_tAcc (s : State) (k : Nibble) (p : Bool) : (s.setKeyBit k p).tAcc = s.tAcc := rfl
@[simp] theorem setKeyBit_key (s : State) (k : Nibble) (p : Bool) : (s.setKeyBit k p).key = s.key.set k.toNat p k.isLt := rfl
@[simp] theorem setKeyBit_awaitingKey (s : State) (k : Nibble) (p : Bool) : (s.setKeyBit k p).awaitingKey = s.awaitingKey := rfl
@[simp] theorem setKeyBit_awaitReg (s : State) (k : Nibble) (p : Bool) : (s.setKeyBit k p).awaitReg = s.awaitReg := rfl
@[simp] theorem setKeyBit_pendingKey (s : State) (k : Nibble) (p : Bool) : (s.setKeyBit k p).pendingKey = s.pendingKey := rfl
@[simp] theorem setKeyBit_fb (s : State) (k : Nibble) (p : Bool) : (s.setKeyBit k p).fb = s.fb := rfl
@[simp] theorem setKeyBit_dirty (s : State) (k : Nibble) (p : Bool) : (s.setKeyBit k p).dirty = s.dirty := rfl
@[simp] theorem setKeyBit_status (s : State) (k : Nibble) (p : Bool) : (s.setKeyBit k p).status = s.status := rfl
@[simp] theorem setKeyBit_mem (s : State) (k : Nibble) (p : Bool) : (s.setKeyBit k p).mem = s.mem := rfl
@[simp] theorem setKeyBit_cfg (s : State) (k : Nibble) (p : Bool) : (s.setKeyBit k p).cfg = s.cfg := rfl
@[simp] theorem setKeyBit_draws (s : State) (k : Nibble) (p : Bool) : (s.setKeyBit k p).draws = s.draws := rfl

/-! ### `enterWait` -/

@[simp] theorem enterWait_v (s : State) (x : Nibble) : (s.enterWait x).v = s.v := rfl
@[simp] theorem enterWait_index (s : State) (x : Nibble) : (s.enterWait x).index = s.index := rfl
@[simp] theorem enterWait_pc (s : State) (x : Nibble) : (s.enterWait x).pc = s.pc := rfl
@[simp] theorem enterWait_sp (s : State) (x : Nibble) : (s.enterWait x).sp = s.sp := rfl
@[simp] theorem enterWait_stack (s : State) (x : Nibble) : (s.enterWait x).stack = s.stack := rfl
@[simp] theorem enterWait_dt (s : State) (x : Nibble) : (s.enterWait x).dt = s.dt := rfl
@[simp] theorem enterWait_st (s : State) (x : Nibble) : (s.enterWait x).st = s.st := rfl
@[simp] theorem enterWait_tAcc (s : State) (x : Nibble) : (s.enterWait x).tAcc = s.tAcc := rfl
@[simp] theorem enterWait_key (s : State) (x : Nibble) : (s.enterWait x).key = s.key := rfl
@[simp] theorem enterWait_awaitingKey (s : State) (x : Nibble) : (s.enterWait x).awaitingKey = true := rfl
@[simp] theorem enterWait_awaitReg (s : State) (x : Nibble) : (s.enterWait x).awaitReg = x := rfl
@[simp] theorem enterWait_pendingKey (s : State) (x : Nibble) : (s.enterWait x).pendingKey = none := rfl
@[simp] theorem enterWait_fb (s : State) (x : Nibble) : (s.enterWait x).fb = s.fb := rfl
@[simp] theorem enterWait_dirty (s : State) (x : Nibble) : (s.enterWait x).dirty = s.dirty := rfl
@[simp] theorem enterWait_status (s : State) (x : Nibble) : (s.enterWait x).status = s.status := rfl
@[simp] theorem enterWait_mem (s : State) (x : Nibble) : (s.enterWait x).mem = s.mem := rfl
@[simp] theorem enterWait_cfg (s : State) (x : Nibble) : (s.enterWait x).cfg = s.cfg := rfl
@[simp] theorem enterWait_draws (s : State) (x : Nibble) : (s.enterWait x).draws = s.draws := rfl

/-! ### `push` -/

@[simp] theorem push_v (s : State) (w : Word) (h : s.sp.val < 16) : (s.push w h).v = s.v := rfl
@[simp] theorem push_index (s : State) (w : Word) (h : s.sp.val < 16) : (s.push w h).index = s.index := rfl
@[simp] theorem push_pc (s : State) (w : Word) (h : s.sp.val < 16) : (s.push w h).pc = s.pc := rfl
@[simp] theorem push_sp (s : State) (w : Word) (h : s.sp.val < 16) : (s.push w h).sp = ⟨s.sp.val + 1, by omega⟩ := rfl
@[simp] theorem push_stack (s : State) (w : Word) (h : s.sp.val < 16) : (s.push w h).stack = s.stack.set s.sp.val w h := rfl
@[simp] theorem push_dt (s : State) (w : Word) (h : s.sp.val < 16) : (s.push w h).dt = s.dt := rfl
@[simp] theorem push_st (s : State) (w : Word) (h : s.sp.val < 16) : (s.push w h).st = s.st := rfl
@[simp] theorem push_tAcc (s : State) (w : Word) (h : s.sp.val < 16) : (s.push w h).tAcc = s.tAcc := rfl
@[simp] theorem push_key (s : State) (w : Word) (h : s.sp.val < 16) : (s.push w h).key = s.key := rfl
@[simp] theorem push_awaitingKey (s : State) (w : Word) (h : s.sp.val < 16) : (s.push w h).awaitingKey = s.awaitingKey := rfl
@[simp] theorem push_awaitReg (s : State) (w : Word) (h : s.sp.val < 16) : (s.push w h).awaitReg = s.awaitReg := rfl
@[simp] theorem push_pendingKey (s : State) (w : Word) (h : s.sp.val < 16) : (s.push w h).pendingKey = s.pendingKey := rfl
@[simp] theorem push_fb (s : State) (w : Word) (h : s.sp.val < 16) : (s.push w h).fb = s.fb := rfl
@[simp] theorem push_dirty (s : State) (w : Word) (h : s.sp.val < 16) : (s.push w h).dirty = s.dirty := rfl
@[simp] theorem push_status (s : State) (w : Word) (h : s.sp.val < 16) : (s.push w h).status = s.status := rfl
@[simp] theorem push_mem (s : State) (w : Word) (h : s.sp.val < 16) : (s.push w h).mem = s.mem := rfl
@[simp] theorem push_cfg (s : State) (w : Word) (h : s.sp.val < 16) : (s.push w h).cfg = s.cfg := rfl
@[simp] theorem push_draws (s : State) (w : Word) (h : s.sp.val < 16) : (s.push w h).draws = s.draws := rfl

/-! ### `popPc` -/

@[simp] theorem popPc_v (s : State) (h : s.sp.val ≠ 0) : (s.popPc h).v = s.v := rfl
@[simp] theorem popPc_index (s : State) (h : s.sp.val ≠ 0) : (s.popPc h).index = s.index := rfl
@[simp] theorem popPc_pc (s : State) (h : s.sp.val ≠ 0) : (s.popPc h).pc = s.stack[s.sp.val - 1]'(by omega) := rfl
@[simp] theorem popPc_sp (s : State) (h : s.sp.val ≠ 0) : (s.popPc h).sp = ⟨s.sp.val - 1, by omega⟩ := rfl
@[simp] theorem popPc_stack (s : State) (h : s.sp.val ≠ 0) : (s.popPc h).stack = s.stack := rfl
@[simp] theorem popPc_dt (s : State) (h : s.sp.val ≠ 0) : (s.popPc h).dt = s.dt := rfl
@[simp] theorem popPc_st (s : State) (h : s.sp.val ≠ 0) : (s.popPc h).st = s.st := rfl
@[simp] theorem popPc_tAcc (s : State) (h : s.sp.val ≠ 0) : (s.popPc h).tAcc = s.tAcc := rfl
@[simp] theorem popPc_key (s : State) (h : s.sp.val ≠ 0) : (s.popPc h).key = s.key := rfl
@[simp] theorem popPc_awaitingKey (s : State) (h : s.sp.val ≠ 0) : (s.popPc h).awaitingKey = s.awaitingKey := rfl
@[simp] theorem popPc_awaitReg (s : State) (h : s.sp.val ≠ 0) : (s.popPc h).awaitReg = s.awaitReg := rfl
@[simp] theorem popPc_pendingKey (s : State) (h : s.sp.val ≠ 0) : (s.popPc h).pendingKey = s.pendingKey := rfl
@[simp] theorem popPc_fb (s : State) (h : s.sp.val ≠ 0) : (s.popPc h).fb = s.fb := rfl
@[simp] theorem popPc_dirty (s : State) (h : s.sp.val ≠ 0) : (s.popPc h).dirty = s.dirty := rfl
@[simp] theorem popPc_status (s : State) (h : s.sp.val ≠ 0) : (s.popPc h).status = s.status := rfl
@[simp] theorem popPc_mem (s : State) (h : s.sp.val ≠ 0) : (s.popPc h).mem = s.mem := rfl
@[simp] theorem popPc_cfg (s : State) (h : s.sp.val ≠ 0) : (s.popPc h).cfg = s.cfg := rfl
@[simp] theorem popPc_draws (s : State) (h : s.sp.val ≠ 0) : (s.popPc h).draws = s.draws := rfl

/-! ### `writeFlagged`: only the V registers change, in either order -/

@[simp] theorem writeFlagged_index (s : State) (x : Nibble) (b : Byte) (c : Bool) :
    (s.writeFlagged x b c).index = s.index := by
  unfold State.writeFlagged; split <;> rfl
@[simp] theorem writeFlagged_pc (s : State) (x : Nibble) (b : Byte) (c : Bool) :
    (s.writeFlagged x b c).pc = s.pc := by
  unfold State.writeFlagged; split <;> rfl
@[simp] theorem writeFlagged_sp (s : State) (x : Nibble) (b : Byte) (c : Bool) :
    (s.writeFlagged x b c).sp = s.sp := by
  unfold State.writeFlagged; split <;> rfl
@[simp] theorem writeFlagged_stack (s : State) (x : Nibble) (b : Byte) (c : Bool) :
    (s.writeFlagged x b c).stack = s.stack := by
  unfold State.writeFlagged; split <;> rfl
@[simp] theorem writeFlagged_dt (s : State) (x : Nibble) (b : Byte) (c : Bool) :
    (s.writeFlagged x b c).dt = s.dt := by
  unfold State.writeFlagged; split <;> rfl
@[simp] theorem writeFlagged_st (s : State) (x : Nibble) (b : Byte) (c : Bool) :
    (s.writeFlagged x b c).st = s.st := by
  unfold State.writeFlagged; split <;> rfl
@[simp] theorem writeFlagged_tAcc (s : State) (x : Nibble) (b : Byte) (c : Bool) :
    (s.writeFlagged x b c).tAcc = s.tAcc := by
  unfold State.writeFlagged; split <;> rfl
@[simp] theorem writeFlagged_key (s : State) (x : Nibble) (b : Byte) (c : Bool) :
    (s.writeFlagged x b c).key = s.key := by
  unfold State.writeFlagged; split <;> rfl
@[simp] theorem writeFlagged_awaitingKey (s : State) (x : Nibble) (b : Byte) (c : Bool) :
    (s.writeFlagged x b c).awaitingKey = s.awaitingKey := by
  unfold State.writeFlagged; split <;> rfl
@[simp] theorem writeFlagged_awaitReg (s : State) (x : Nibble) (b : Byte) (c : Bool) :
    (s.writeFlagged x b c).awaitReg = s.awaitReg := by
  unfold State.writeFlagged; split <;> rfl
@[simp] theorem writeFlagged_pendingKey (s : State) (x : Nibble) (b : Byte) (c : Bool) :
    (s.writeFlagged x b c).pendingKey = s.pendingKey := by
  unfold State.writeFlagged; split <;> rfl
@[simp] theorem writeFlagged_fb (s : State) (x : Nibble) (b : Byte) (c : Bool) :
    (s.writeFlagged x b c).fb = s.fb := by
  unfold State.writeFlagged; split <;> rfl
@[simp] theorem writeFlagged_dirty (s : State) (x : Nibble) (b : Byte) (c : Bool) :
    (s.writeFlagged x b c).dirty = s.dirty := by
  unfold State.writeFlagged; split <;> rfl
@[simp] theorem writeFlagged_status (s : State) (x : Nibble) (b : Byte) (c : Bool) :
    (s.writeFlagged x b c).status = s.status := by
  unfold State.writeFlagged; split <;> rfl
@[simp] theorem writeFlagged_mem (s : State) (x : Nibble) (b : Byte) (c : Bool) :
    (s.writeFlagged x b c).mem = s.mem := by
  unfold State.writeFlagged; split <;> rfl
@[simp] theorem writeFlagged_cfg (s : State) (x : Nibble) (b : Byte) (c : Bool) :
    (s.writeFlagged x b c).cfg = s.cfg := by
  unfold State.writeFlagged; split <;> rfl
@[simp] theorem writeFlagged_draws (s : State) (x : Nibble) (b : Byte) (c : Bool) :
    (s.writeFlagged x b c).draws = s.draws := by
  unfold State.writeFlagged; split <;> rfl

/-! ### The draw of the oracle -/

@[simp] theorem draw_v (s : State) : s.draw.2.v = s.v := rfl
@[simp] theorem draw_index (s : State) : s.draw.2.index = s.index := rfl
@[simp] theorem draw_pc (s : State) : s.draw.2.pc = s.pc := rfl
@[simp] theorem draw_sp (s : State) : s.draw.2.sp = s.sp := rfl
@[simp] theorem draw_stack (s : State) : s.draw.2.stack = s.stack := rfl
@[simp] theorem draw_dt (s : State) : s.draw.2.dt = s.dt := rfl
@[simp] theorem draw_st (s : State) : s.draw.2.st = s.st := rfl
@[simp] theorem draw_tAcc (s : State) : s.draw.2.tAcc = s.tAcc := rfl
@[simp] theorem draw_key (s : State) : s.draw.2.key = s.key := rfl
@[simp] theorem draw_awaitingKey (s : State) : s.draw.2.awaitingKey = s.awaitingKey := rfl
@[simp] theorem draw_awaitReg (s : State) : s.draw.2.awaitReg = s.awaitReg := rfl
@[simp] theorem draw_pendingKey (s : State) : s.draw.2.pendingKey = s.pendingKey := rfl
@[simp] theorem draw_fb (s : State) : s.draw.2.fb = s.fb := rfl
@[simp] theorem draw_dirty (s : State) : s.draw.2.dirty = s.dirty := rfl
@[simp] theorem draw_status (s : State) : s.draw.2.status = s.status := rfl
@[simp] theorem draw_mem (s : State) : s.draw.2.mem = s.mem := rfl
@[simp] theorem draw_cfg (s : State) : s.draw.2.cfg = s.cfg := rfl
@[simp] theorem draw_draws (s : State) : s.draw.2.draws = s.draws + 1 := rfl
@[simp] theorem draw_value (s : State) : s.draw.1 = Config.randomByte s.draws := rfl

end Sys2Proof.Machine
end

