-- ==== Sys2Proof/Laws/Ops.lean ====
section
/-! SUPPORT. What each shared operation can do, said once: registers, memory bytes, flagged writes, the runs of
`FX55` and `FX65`, the framebuffer, the timers, `reset()` and `load`. -/
namespace Sys2Proof.Machine

variable {s : State}

/-! ## Registers -/

@[simp] theorem getV_setV_same (x : Nibble) (b : Byte) : (s.setV x b).getV x = b := by
  simp [State.getV]

theorem getV_setV_other {x r : Nibble} (b : Byte) (h : r ≠ x) : (s.setV x b).getV r = s.getV r := by
  have : x.toNat ≠ r.toNat := fun e => h (BitVec.eq_of_toNat_eq e.symm)
  simp [State.getV, this]

theorem getV_setV (x r : Nibble) (b : Byte) : (s.setV x b).getV r = if r = x then b else s.getV r := by
  by_cases h : r = x
  · subst h; simp
  · simp [h, getV_setV_other b h]

/-- Two states with the same V registers read the same. -/
theorem getV_congr {t : State} (h : t.v = s.v) (r : Nibble) : t.getV r = s.getV r := by
  simp [State.getV, h]

@[simp] theorem getV_setPc (w : Word) (r : Nibble) : (s.setPc w).getV r = s.getV r := rfl
@[simp] theorem getV_advance (r : Nibble) : s.advance.getV r = s.getV r := rfl
@[simp] theorem getV_skipIf (c : Bool) (r : Nibble) : (s.skipIf c).getV r = s.getV r := rfl
@[simp] theorem getV_setIndex (w : Word) (r : Nibble) : (s.setIndex w).getV r = s.getV r := rfl
@[simp] theorem getV_setFb (fb : Framebuffer) (r : Nibble) : (s.setFb fb).getV r = s.getV r := rfl
@[simp] theorem getV_writeByte (a : Addr) (b : Byte) (r : Nibble) : (s.writeByte a b).getV r = s.getV r := rfl
@[simp] theorem getV_enterWait (x r : Nibble) : (s.enterWait x).getV r = s.getV r := rfl

/-! ## Memory bytes -/

/-- Two states with the same memory and font read the same bytes. -/
theorem readByte_congr {t : State} (hm : t.mem = s.mem) (hc : t.cfg = s.cfg) (a : Addr) :
    t.readByte a = s.readByte a := by
  simp [State.readByte, State.blank, hm, hc]

@[simp] theorem blank_writeByte (a : Addr) (b : Byte) : (s.writeByte a b).blank = s.blank := rfl

@[simp] theorem readByte_writeByte_same (a : Addr) (b : Byte) : (s.writeByte a b).readByte a = b := by
  simp [State.readByte, read_write_same]

theorem readByte_writeByte_other {a c : Addr} (b : Byte) (h : c ≠ a) :
    (s.writeByte a b).readByte c = s.readByte c := by
  have : c.toNat ≠ a.toNat := fun e => h (BitVec.eq_of_toNat_eq e)
  simp [State.readByte, read_write_other this]

theorem readByte_writeByte (a c : Addr) (b : Byte) :
    (s.writeByte a b).readByte c = if c = a then b else s.readByte c := by
  by_cases h : c = a
  · subst h; simp
  · simp [h, readByte_writeByte_other b h]

@[simp] theorem readByte_setV (x : Nibble) (b : Byte) (a : Addr) : (s.setV x b).readByte a = s.readByte a := rfl
@[simp] theorem readByte_setPc (w : Word) (a : Addr) : (s.setPc w).readByte a = s.readByte a := rfl
@[simp] theorem readByte_advance (a : Addr) : s.advance.readByte a = s.readByte a := rfl
@[simp] theorem readByte_setIndex (w : Word) (a : Addr) : (s.setIndex w).readByte a = s.readByte a := rfl
@[simp] theorem readByte_setFlag (c : Bool) (a : Addr) : (s.setFlag c).readByte a = s.readByte a := rfl
@[simp] theorem readByte_setFb (fb : Framebuffer) (a : Addr) : (s.setFb fb).readByte a = s.readByte a := rfl

@[simp] theorem readByte_writeFlagged (x : Nibble) (b : Byte) (c : Bool) (a : Addr) :
    (s.writeFlagged x b c).readByte a = s.readByte a :=
  readByte_congr (by simp) (by simp) a

theorem writeByte_wf (a : Addr) (b : Byte) (h : Memory.wf s.blank s.mem) :
    Memory.wf (s.writeByte a b).blank (s.writeByte a b).mem := by
  simpa using write_wf (v := b) h a.isLt

/-! ## Flagged writes (43_alu.md R160) -/

/-- With X ≠ F both orders give the same state: V[X] is the result, VF the flag. -/
theorem writeFlagged_getV {x : Nibble} (hx : x ≠ regF) (b : Byte) (c : Bool) (r : Nibble) :
    (s.writeFlagged x b c).getV r =
      if r = x then b else if r = regF then flagByte c else s.getV r := by
  unfold State.writeFlagged
  split <;> simp only [State.setFlag, getV_setV]
  by_cases h : r = regF
  · subst h; simp [Ne.symm hx]
  · simp [h]

/-- With X = F, VF_ORDER decides what VF ends with; no other register changes. -/
theorem writeFlagged_getV_regF (b : Byte) (c : Bool) (r : Nibble) :
    (s.writeFlagged regF b c).getV r =
      if r = regF then (match s.cfg.vfOrder with | .resultLast => b | .flagLast => flagByte c)
      else s.getV r := by
  unfold State.writeFlagged
  cases s.cfg.vfOrder <;> by_cases hr : r = regF <;> simp [State.setFlag, getV_setV, hr]

/-! ## The runs of registers (44_index_memory.md R204, R205) -/

@[simp] theorem dataAddr_writeByte (a : Addr) (b : Byte) (k : Nat) :
    (s.writeByte a b).dataAddr k = s.dataAddr k := rfl

@[simp] theorem dataAddr_setV (x : Nibble) (b : Byte) (k : Nat) : (s.setV x b).dataAddr k = s.dataAddr k := rfl

/-- Addresses of one run are distinct modulo 4096 (20_memory.md R63). -/
theorem dataAddr_inj {j k : Nat} (hj : j < 4096) (hk : k < 4096) (h : s.dataAddr j = s.dataAddr k) : j = k := by
  have h' := congrArg BitVec.toNat h
  simp only [State.dataAddr, mask12, BitVec.toNat_setWidth, BitVec.toNat_add, BitVec.toNat_ofNat] at h'
  omega

/-- A fold of one-byte stores changes only memory. -/
theorem foldl_writeByte_frame (l : List Nat) (t : State) :
    l.foldl (fun t k => t.writeByte (t.dataAddr k) (t.getV (BitVec.ofNat 4 k))) t
      = { t with mem := (l.foldl (fun t k => t.writeByte (t.dataAddr k) (t.getV (BitVec.ofNat 4 k))) t).mem } := by
  induction l generalizing t with
  | nil => rfl
  | cons k l ih =>
    simp only [List.foldl_cons]
    rw [ih]
    rfl

/-- A fold of one-byte loads changes only the V registers. -/
theorem foldl_setV_frame (l : List Nat) (t : State) :
    l.foldl (fun t k => t.setV (BitVec.ofNat 4 k) (t.readByte (t.dataAddr k))) t
      = { t with v := (l.foldl (fun t k => t.setV (BitVec.ofNat 4 k) (t.readByte (t.dataAddr k))) t).v } := by
  induction l generalizing t with
  | nil => rfl
  | cons k l ih =>
    simp only [List.foldl_cons]
    rw [ih]
    rfl

/-- `storeRegs` changes only memory. -/
theorem storeRegs_frame (x : Nibble) : s.storeRegs x = { s with mem := (s.storeRegs x).mem } :=
  foldl_writeByte_frame _ _

/-- `loadRegs` changes only the V registers. -/
theorem loadRegs_frame (x : Nibble) : s.loadRegs x = { s with v := (s.loadRegs x).v } :=
  foldl_setV_frame _ _

/-- The byte at `a` after the first n registers are stored. -/
theorem foldl_writeByte_readByte (n : Nat) (hn : n ≤ 16) (a : Addr) :
    (∀ k, k < n → a = s.dataAddr k →
      ((List.range n).foldl (fun t k => t.writeByte (t.dataAddr k) (t.getV (BitVec.ofNat 4 k))) s).readByte a
        = s.getV (BitVec.ofNat 4 k)) ∧
    ((∀ k, k < n → a ≠ s.dataAddr k) →
      ((List.range n).foldl (fun t k => t.writeByte (t.dataAddr k) (t.getV (BitVec.ofNat 4 k))) s).readByte a
        = s.readByte a) := by
  induction n with
  | zero => simp
  | succ n ih =>
    obtain ⟨ih1, ih2⟩ := ih (by omega)
    have hf := foldl_writeByte_frame (List.range n) s
    simp only [List.range_succ, List.foldl_append, List.foldl_cons, List.foldl_nil]
    generalize hg : (List.range n).foldl (fun t k => t.writeByte (t.dataAddr k) (t.getV (BitVec.ofNat 4 k))) s = g
      at ih1 ih2 hf
    have hd : g.dataAddr n = s.dataAddr n := by rw [hf]; rfl
    have hv : g.getV (BitVec.ofNat 4 n) = s.getV (BitVec.ofNat 4 n) := by rw [hf]; rfl
    rw [readByte_writeByte, hd, hv]
    refine ⟨fun k hk ha => ?_, fun h => ?_⟩
    · by_cases hkn : k = n
      · subst hkn; simp [ha]
      · have : a ≠ s.dataAddr n := fun e => hkn (dataAddr_inj (by omega) (by omega) (ha.symm.trans e))
        simp only [this, if_false]
        exact ih1 k (by omega) ha
    · simp only [h n (by omega), if_false]
      exact ih2 (fun k hk => h k (by omega))

/-- `storeRegs x` puts V[k] at I + k for each k up to X (R204). -/
theorem storeRegs_stored (x : Nibble) {k : Nat} (hk : k ≤ x.toNat) :
    (s.storeRegs x).readByte (s.dataAddr k) = s.getV (BitVec.ofNat 4 k) :=
  (foldl_writeByte_readByte (x.toNat + 1) (by have := x.isLt; omega) _).1 k (by omega) rfl

/-- `storeRegs x` changes no other byte. -/
theorem storeRegs_other (x : Nibble) {a : Addr} (h : ∀ k, k ≤ x.toNat → a ≠ s.dataAddr k) :
    (s.storeRegs x).readByte a = s.readByte a :=
  (foldl_writeByte_readByte (x.toNat + 1) (by have := x.isLt; omega) _).2 (fun k hk => h k (by omega))

theorem foldl_writeByte_wf (l : List Nat) (t : State) (h : Memory.wf t.blank t.mem) :
    Memory.wf t.blank (l.foldl (fun t k => t.writeByte (t.dataAddr k) (t.getV (BitVec.ofNat 4 k))) t).mem := by
  induction l generalizing t with
  | nil => exact h
  | cons k l ih => exact ih _ (writeByte_wf _ _ h)

theorem storeRegs_wf (x : Nibble) (h : Memory.wf s.blank s.mem) : Memory.wf s.blank (s.storeRegs x).mem :=
  foldl_writeByte_wf _ _ h

theorem storeDigits_wf (b : Byte) (h : Memory.wf s.blank s.mem) : Memory.wf s.blank (s.storeDigits b).mem :=
  writeByte_wf _ _ (writeByte_wf _ _ (writeByte_wf _ _ h))

/-- `storeDigits` changes only memory. -/
theorem storeDigits_frame (b : Byte) : s.storeDigits b = { s with mem := (s.storeDigits b).mem } := rfl

/-- The register `r` after the first n bytes are loaded. -/
theorem foldl_setV_getV (n : Nat) (hn : n ≤ 16) (r : Nibble) :
    ((List.range n).foldl (fun t k => t.setV (BitVec.ofNat 4 k) (t.readByte (t.dataAddr k))) s).getV r
      = if r.toNat < n then s.readByte (s.dataAddr r.toNat) else s.getV r := by
  induction n with
  | zero => simp
  | succ n ih =>
    have hf := foldl_setV_frame (List.range n) s
    have ih := ih (by omega)
    simp only [List.range_succ, List.foldl_append, List.foldl_cons, List.foldl_nil]
    generalize hg : (List.range n).foldl (fun t k => t.setV (BitVec.ofNat 4 k) (t.readByte (t.dataAddr k))) s = g
      at ih hf
    have hr : g.readByte (g.dataAddr n) = s.readByte (s.dataAddr n) := by rw [hf]; rfl
    rw [getV_setV, hr, ih]
    have hiff : r = BitVec.ofNat 4 n ↔ r.toNat = n := by
      constructor
      · intro e; subst e; simp; omega
      · intro e; exact BitVec.eq_of_toNat_eq (by simp [e]; omega)
    by_cases hrn : r.toNat = n
    · simp [hiff, hrn]
    · have : r.toNat < n ↔ r.toNat < n + 1 := by omega
      simp [hiff, hrn, this]

/-- `loadRegs x` loads V[r] from I + r for each r up to X and no other register (R205). -/
theorem loadRegs_getV (x r : Nibble) :
    (s.loadRegs x).getV r = if r.toNat ≤ x.toNat then s.readByte (s.dataAddr r.toNat) else s.getV r := by
  have := foldl_setV_getV (s := s) (x.toNat + 1) (by have := x.isLt; omega) r
  simpa [State.loadRegs, Nat.lt_succ_iff] using this

/-! ## The framebuffer (40_display.md R100 to R104) -/

theorem pixel_mod (fb : Framebuffer) (x y : Nat) : pixel fb (x % 64) (y % 32) = pixel fb x y := by
  simp [pixel]

/-- A toggle flips exactly the pixel at its wrapped coordinates. -/
theorem pixel_togglePixel (fb : Framebuffer) (x y px py : Nat) :
    pixel (togglePixel fb x y) px py
      = (pixel fb px py ^^ (decide (px % 64 = x % 64) && decide (py % 32 = y % 32))) := by
  unfold pixel togglePixel
  by_cases hy : y % 32 = py % 32
  · have hx : px % 64 < 64 := Nat.mod_lt _ (by decide)
    simp only [Vector.getElem_set, hy, if_true, BitVec.getLsbD_xor, BitVec.getLsbD_twoPow, decide_true,
      Bool.and_true]
    rw [show decide (x % 64 < 64) = true from by simp [Nat.mod_lt], Bool.true_and]
    simp only [eq_comm (a := x % 64)]
  · simp [hy, Ne.symm hy]

theorem pixel_clearedFb (x y : Nat) : pixel clearedFb x y = false := by
  simp [pixel, clearedFb]

/-- Two framebuffers with the same 64 × 32 pixels are equal. -/
theorem framebuffer_ext {f g : Framebuffer} (h : ∀ x y, x < 64 → y < 32 → pixel f x y = pixel g x y) : f = g := by
  ext y hy x hx
  have := h x y hx hy
  simpa [pixel, Nat.mod_eq_of_lt hx, Nat.mod_eq_of_lt hy, BitVec.getLsbD_eq_getElem hx] using this

/-- One column of a sprite row: a set source bit toggles its pixel and reports it if it was set. -/
theorem drawColumn_spec (row : Byte) (x y c : Nat) (acc : Framebuffer × Bool) :
    (∀ px py, pixel (drawColumn row x y acc c).1 px py
      = (pixel acc.1 px py ^^ (row.getLsbD (7 - c) && (decide (px % 64 = (x + c) % 64) && decide (py % 32 = y % 32))))) ∧
    (drawColumn row x y acc c).2 = (acc.2 || (row.getLsbD (7 - c) && pixel acc.1 (x + c) y)) := by
  unfold drawColumn xorPixel
  by_cases h : row.getLsbD (7 - c) = true
  · simp [h, pixel_togglePixel]
  · simp [h]

/-- The first m columns of a row: each pixel a set source bit lands on is toggled once, and the report is
whether one of them was set before (R104: no pixel is toggled twice). -/
theorem foldl_drawColumn_spec (row : Byte) (x y : Nat) (m : Nat) (hm : m ≤ 8) (acc : Framebuffer × Bool) :
    (∀ px py, pixel ((List.range m).foldl (drawColumn row x y) acc).1 px py
      = (pixel acc.1 px py ^^
          decide (∃ c, c < m ∧ row.getLsbD (7 - c) = true ∧ px % 64 = (x + c) % 64 ∧ py % 32 = y % 32))) ∧
    (((List.range m).foldl (drawColumn row x y) acc).2 = true ↔
      acc.2 = true ∨ ∃ c, c < m ∧ row.getLsbD (7 - c) = true ∧ pixel acc.1 (x + c) y = true) := by
  induction m with
  | zero => simp
  | succ m ih =>
    obtain ⟨ih1, ih2⟩ := ih (by omega)
    simp only [List.range_succ, List.foldl_append, List.foldl_cons, List.foldl_nil]
    generalize (List.range m).foldl (drawColumn row x y) acc = g at ih1 ih2
    obtain ⟨h1, h2⟩ := drawColumn_spec row x y m g
    have split (P : Nat → Prop) : (∃ c, c < m + 1 ∧ P c) ↔ (∃ c, c < m ∧ P c) ∨ P m := by
      constructor
      · rintro ⟨c, hc, hp⟩
        rcases Nat.lt_succ_iff_lt_or_eq.mp hc with h | rfl
        · exact .inl ⟨c, h, hp⟩
        · exact .inr hp
      · rintro (⟨c, hc, hp⟩ | hp)
        · exact ⟨c, by omega, hp⟩
        · exact ⟨m, by omega, hp⟩
    refine ⟨fun px py => ?_, ?_⟩
    · rw [h1, ih1]
      simp only [split, Bool.decide_or]
      by_cases hb : row.getLsbD (7 - m) = true ∧ px % 64 = (x + m) % 64 ∧ py % 32 = y % 32
      · have hno : ¬ ∃ c, c < m ∧ row.getLsbD (7 - c) = true ∧ px % 64 = (x + c) % 64 ∧ py % 32 = y % 32 := by
          rintro ⟨c, hc, _, hx, _⟩
          omega
        simp [hb.1, hb.2.1, hb.2.2]
        have hno' : ¬ ∃ c, c < m ∧ row.getLsbD (7 - c) = true ∧ (x + m) % 64 = (x + c) % 64 := by
          rintro ⟨c, hc, _, hx⟩
          omega
        simp [hno']
      · have : (row.getLsbD (7 - m) && (decide (px % 64 = (x + m) % 64) && decide (py % 32 = y % 32))) = false := by
          simpa using hb
        rw [this, show decide (row.getLsbD (7 - m) = true ∧ px % 64 = (x + m) % 64 ∧ py % 32 = y % 32) = false
          from decide_eq_false hb]
        simp
    · rw [h2, split]
      have hno : ¬ ∃ c, c < m ∧ row.getLsbD (7 - c) = true ∧ (x + m) % 64 = (x + c) % 64 ∧ y % 32 = y % 32 := by
        rintro ⟨c, hc, _, hx, _⟩
        omega
      have hp : pixel g.1 (x + m) y = pixel acc.1 (x + m) y := by
        rw [ih1, decide_eq_false hno, Bool.xor_false]
      simp only [Bool.or_eq_true, Bool.and_eq_true, hp, ih2, or_assoc]

/-- One sprite row: the pixels it covers are toggled, no other (R103, R104). -/
theorem drawRow_spec (row : Byte) (x y : Nat) (acc : Framebuffer × Bool) :
    (∀ px py, RowCovers row x y px py → pixel (drawRow row x y acc).1 px py = !pixel acc.1 px py) ∧
    (∀ px py, ¬ RowCovers row x y px py → pixel (drawRow row x y acc).1 px py = pixel acc.1 px py) ∧
    ((drawRow row x y acc).2 = true ↔
      acc.2 = true ∨ ∃ c, c < 8 ∧ row.getLsbD (7 - c) = true ∧ pixel acc.1 (x + c) y = true) := by
  obtain ⟨h1, h2⟩ := foldl_drawColumn_spec row x y 8 (by decide) acc
  refine ⟨fun px py h => ?_, fun px py h => ?_, h2⟩
  · unfold RowCovers at h
    have := h1 px py
    simp only [eq_true h, decide_true, Bool.xor_true] at this
    exact this
  · unfold RowCovers at h
    have := h1 px py
    simp only [eq_false h, decide_false, Bool.xor_false] at this
    exact this

/-- A whole sprite of at most 32 rows: a pixel that a set source bit lands on is toggled once, every other is
unchanged, and the report is whether a covered pixel was set before (R103, R104). -/
theorem drawSprite_spec (rows : Nat → Byte) (x y : Nat) (fb : Framebuffer) (n : Nat) (hn : n ≤ 32) :
    (∀ px py, SpriteCovers rows n x y px py →
      pixel (drawSprite rows n x y fb).1 px py = !pixel fb px py) ∧
    (∀ px py, ¬ SpriteCovers rows n x y px py →
      pixel (drawSprite rows n x y fb).1 px py = pixel fb px py) ∧
    ((drawSprite rows n x y fb).2 = true ↔
      ∃ r, r < n ∧ ∃ c, c < 8 ∧ (rows r).getLsbD (7 - c) = true ∧ pixel fb (x + c) (y + r) = true) := by
  induction n with
  | zero => simp [drawSprite, SpriteCovers]
  | succ n ih =>
    obtain ⟨ih1, ih2, ih3⟩ := ih (by omega)
    have hstep : drawSprite rows (n + 1) x y fb = drawRow (rows n) x (y + n) (drawSprite rows n x y fb) := by
      simp [drawSprite, List.range_succ]
    generalize drawSprite rows n x y fb = g at ih1 ih2 ih3 hstep
    obtain ⟨h1, h1', h2⟩ := drawRow_spec (rows n) x (y + n) g
    have split (P : Nat → Prop) : (∃ r, r < n + 1 ∧ P r) ↔ (∃ r, r < n ∧ P r) ∨ P n := by
      constructor
      · rintro ⟨c, hc, hp⟩
        rcases Nat.lt_succ_iff_lt_or_eq.mp hc with h | rfl
        · exact .inl ⟨c, h, hp⟩
        · exact .inr hp
      · rintro (⟨c, hc, hp⟩ | hp)
        · exact ⟨c, by omega, hp⟩
        · exact ⟨n, by omega, hp⟩
    have hcov (px py : Nat) : SpriteCovers rows (n + 1) x y px py ↔ SpriteCovers rows n x y px py ∨
        RowCovers (rows n) x (y + n) px py := split _
    have hexcl (px py : Nat) : SpriteCovers rows n x y px py → ¬ RowCovers (rows n) x (y + n) px py := by
      rintro ⟨r, hr, _, _, _, _, hy⟩ ⟨_, _, _, _, hy'⟩
      omega
    refine ⟨fun px py h => ?_, fun px py h => ?_, ?_⟩
    · rw [hstep]
      rcases (hcov px py).mp h with hc | hc
      · rw [h1' px py (hexcl px py hc), ih1 px py hc]
      · rw [h1 px py hc, ih2 px py (fun h' => hexcl px py h' hc)]
    · rw [hstep, h1' px py (fun h' => h ((hcov px py).mpr (.inr h'))),
        ih2 px py (fun h' => h ((hcov px py).mpr (.inl h')))]
    · rw [hstep, h2, split, ih3]
      have hpix (c : Nat) : pixel g.1 (x + c) (y + n) = pixel fb (x + c) (y + n) := by
        apply ih2
        rintro ⟨r, hr, _, _, _, _, hy⟩
        omega
      simp only [hpix]

/-! ## The timers (60_exceptions.md R274, R275) -/

theorem tickDown_toNat (t : Byte) : (tickDown t).toNat = t.toNat - 1 := by
  unfold tickDown
  split
  · rename_i h; subst h; rfl
  · rename_i h
    have : t.toNat ≠ 0 := fun e => h (BitVec.eq_of_toNat_eq e)
    have := t.isLt
    rw [BitVec.toNat_sub]
    simp
    omega

/-- The loop of `tickTimers`, with enough fuel: k = (tAcc - 1) / 50 ticks, each taking 50 units and 1 from every
counter above 0; nothing else changes. -/
theorem tickLoop_spec (fuel : Nat) : ∀ s : State, s.tAcc ≤ fuel →
    (s.tickLoop fuel).tAcc = s.tAcc - 50 * ((s.tAcc - 1) / 50) ∧
    (s.tickLoop fuel).dt.toNat = s.dt.toNat - (s.tAcc - 1) / 50 ∧
    (s.tickLoop fuel).st.toNat = s.st.toNat - (s.tAcc - 1) / 50 ∧
    s.tickLoop fuel = { s with
      tAcc := (s.tickLoop fuel).tAcc, dt := (s.tickLoop fuel).dt, st := (s.tickLoop fuel).st } := by
  induction fuel with
  | zero =>
    intro s h
    have h0 : (s.tAcc - 1) / 50 = 0 := by omega
    simp [State.tickLoop, h0]
  | succ fuel ih =>
    intro s h
    by_cases hgt : 50 < s.tAcc
    · have hstep : s.tickLoop (fuel + 1) = State.tickLoop { s.tick with tAcc := s.tAcc - 50 } fuel := by
        simp [State.tickLoop, hgt]
      obtain ⟨h1, h2, h3, h4⟩ := ih { s.tick with tAcc := s.tAcc - 50 } (by simp; omega)
      simp only [State.tick, tickDown_toNat] at h1 h2 h3 h4
      rw [hstep]
      simp only [State.tick]
      refine ⟨by rw [h1]; omega, by rw [h2]; omega, by rw [h3]; omega, ?_⟩
      rw [h4]
    · have hstep : s.tickLoop (fuel + 1) = s := by simp [State.tickLoop, hgt]
      rw [hstep]
      have : (s.tAcc - 1) / 50 = 0 := by omega
      simp [this]

/-! ## `load` (70_reset_and_hazards.md R302) -/

/-- `writeBytes` changes only memory. -/
theorem writeBytes_frame (bytes : List Byte) : ∀ (s : State) (a : Addr),
    s.writeBytes a bytes = { s with mem := (s.writeBytes a bytes).mem } := by
  induction bytes with
  | nil => intro s a; rfl
  | cons b rest ih =>
    intro s a
    simp only [State.writeBytes]
    rw [ih]
    rfl

theorem writeBytes_wf (bytes : List Byte) : ∀ (s : State) (a : Addr), Memory.wf s.blank s.mem →
    Memory.wf s.blank (s.writeBytes a bytes).mem := by
  induction bytes with
  | nil => intro s a h; exact h
  | cons b rest ih => intro s a h; exact ih _ _ (writeByte_wf a b h)

/-! ## `reset()` (70_reset_and_hazards.md R301) -/

/-- After `reset()` the font region reads FONT and every other byte as before (R67). -/
theorem readByte_resetVm (a : Addr) :
    s.resetVm.readByte a = if a.toNat < fontSize then s.blank a.toNat else s.readByte a :=
  read_restoreBelow fontSize

theorem resetVm_wf (h : Memory.wf s.blank s.mem) : Memory.wf s.resetVm.blank s.resetVm.mem :=
  restoreBelow_wf fontSize h

/-- `reset()` of a fresh machine is that machine. -/
theorem resetVm_construct (cfg : Config) (draws : Nat) :
    (State.construct cfg draws).resetVm = State.construct cfg draws := rfl

end Sys2Proof.Machine
end

