-- ==== Sys2Proof/Laws/PerInstr.lean ====
section
/-! SUPPORT. The statements made per instruction: a family's Statement and one lemma per constructor of Instr. -/
namespace Sys2Proof.Laws.Recognized

/-- The encoding of the instruction is a well-formed word: it matches a row of the opcode map (30_encoding.md
R75), and it passes the discriminators of its family (R74). -/
def Statement (i : Instr) : Prop := recognized (encode i) = true ∧ discriminated (encode i) = true

theorem familyOf_eq (w : Word) : familyOf w = fieldFamily w := rfl
theorem lowNibbleOf_eq (w : Word) : lowNibbleOf w = fieldN w := rfl
theorem lowByteOf_eq (w : Word) : lowByteOf w = fieldNN w := rfl

/-- A word of a family that one row covers whole. -/
theorem of_family {w : Word} (f : Nibble) (hf : fieldFamily w = f)
    (h : opcodeTable.contains (⟨0xF000#16, f ++ 0#12⟩ : OpcodeRow) = true)
    (hd : ([0, 5, 8, 9, 0xE, 0xF] : List Nibble).contains f = false) :
    recognized w = true ∧ discriminated w = true := by
  refine ⟨List.any_eq_true.mpr ⟨_, List.contains_iff_mem.mp h, by simp [OpcodeRow.matches, and_maskF000, hf]⟩, ?_⟩
  unfold discriminated
  rw [familyOf_eq, hf]
  simp only [List.contains_eq_mem, List.mem_cons, List.not_mem_nil, or_false, decide_eq_false_iff_not, not_or] at hd
  obtain ⟨h0, h5, h8, h9, hE, hF⟩ := hd
  split
  · rename_i e; exact absurd (BitVec.eq_of_toNat_eq (y := 0#4) e) h0
  · rename_i e; exact absurd (BitVec.eq_of_toNat_eq (y := 5#4) e) h5
  · rename_i e; exact absurd (BitVec.eq_of_toNat_eq (y := 8#4) e) h8
  · rename_i e; exact absurd (BitVec.eq_of_toNat_eq (y := 9#4) e) h9
  · rename_i e; exact absurd (BitVec.eq_of_toNat_eq (y := 0xE#4) e) hE
  · rename_i e; exact absurd (BitVec.eq_of_toNat_eq (y := 0xF#4) e) hF
  · rfl

/-- A word of a row that fixes the family and the low nibble. -/
theorem of_nibble {w : Word} (f n : Nibble) (hf : fieldFamily w = f) (hn : fieldN w = n)
    (h : opcodeTable.contains (⟨0xF00F#16, f ++ 0#8 ++ n⟩ : OpcodeRow) = true)
    (hd : ((f == 5#4 || f == 9#4) && n == 0#4 || f == 8#4 && aluFunctions.contains n) = true) :
    recognized w = true ∧ discriminated w = true := by
  refine ⟨List.any_eq_true.mpr ⟨_, List.contains_iff_mem.mp h, by simp [OpcodeRow.matches, and_maskF00F, hf, hn]⟩, ?_⟩
  unfold discriminated
  rw [familyOf_eq, lowNibbleOf_eq, hf, hn]
  simp only [Bool.or_eq_true, Bool.and_eq_true, beq_iff_eq] at hd
  rcases hd with ⟨rfl | rfl, rfl⟩ | ⟨rfl, hc⟩
  · rfl
  · rfl
  · exact hc

/-- A word of a row that fixes the family and the low byte. -/
theorem of_byte {w : Word} (f : Nibble) (nn : Byte) (hf : fieldFamily w = f) (hn : fieldNN w = nn)
    (h : opcodeTable.contains (⟨0xF0FF#16, f ++ 0#4 ++ nn⟩ : OpcodeRow) = true)
    (hd : (f == 0xE#4 && (nn == 0x9E#8 || nn == 0xA1#8) || f == 0xF#4 && miscFunctions.contains nn) = true) :
    recognized w = true ∧ discriminated w = true := by
  refine ⟨List.any_eq_true.mpr ⟨_, List.contains_iff_mem.mp h, by simp [OpcodeRow.matches, and_maskF0FF, hf, hn]⟩, ?_⟩
  unfold discriminated
  rw [familyOf_eq, lowByteOf_eq, hf, hn]
  rw [Bool.or_eq_true, Bool.and_eq_true, Bool.and_eq_true, beq_iff_eq, beq_iff_eq] at hd
  rcases hd with ⟨rfl, hc⟩ | ⟨rfl, hc⟩
  · exact hc
  · exact hc

theorem cls : Statement .cls := ⟨by decide, by decide⟩
theorem ret : Statement .ret := ⟨by decide, by decide⟩
theorem jp (nnn : Addr) : Statement (.jp nnn) :=
  of_family 0x1#4 (family_formatNNN _ _) rfl rfl
theorem call (nnn : Addr) : Statement (.call nnn) :=
  of_family 0x2#4 (family_formatNNN _ _) rfl rfl
theorem seImm (x : Nibble) (nn : Byte) : Statement (.seImm x nn) :=
  of_family 0x3#4 (family_formatXNN _ _ _) rfl rfl
theorem sneImm (x : Nibble) (nn : Byte) : Statement (.sneImm x nn) :=
  of_family 0x4#4 (family_formatXNN _ _ _) rfl rfl
theorem seReg (x y : Nibble) : Statement (.seReg x y) :=
  of_nibble 0x5#4 0x0#4 (family_formatXYN _ _ _ _) (n_formatXYN _ _ _ _) rfl rfl
theorem ldImm (x : Nibble) (nn : Byte) : Statement (.ldImm x nn) :=
  of_family 0x6#4 (family_formatXNN _ _ _) rfl rfl
theorem addImm (x : Nibble) (nn : Byte) : Statement (.addImm x nn) :=
  of_family 0x7#4 (family_formatXNN _ _ _) rfl rfl
theorem ldReg (x y : Nibble) : Statement (.ldReg x y) :=
  of_nibble 0x8#4 0x0#4 (family_formatXYN _ _ _ _) (n_formatXYN _ _ _ _) rfl rfl
theorem orReg (x y : Nibble) : Statement (.orReg x y) :=
  of_nibble 0x8#4 0x1#4 (family_formatXYN _ _ _ _) (n_formatXYN _ _ _ _) rfl rfl
theorem andReg (x y : Nibble) : Statement (.andReg x y) :=
  of_nibble 0x8#4 0x2#4 (family_formatXYN _ _ _ _) (n_formatXYN _ _ _ _) rfl rfl
theorem xorReg (x y : Nibble) : Statement (.xorReg x y) :=
  of_nibble 0x8#4 0x3#4 (family_formatXYN _ _ _ _) (n_formatXYN _ _ _ _) rfl rfl
theorem addReg (x y : Nibble) : Statement (.addReg x y) :=
  of_nibble 0x8#4 0x4#4 (family_formatXYN _ _ _ _) (n_formatXYN _ _ _ _) rfl rfl
theorem sub (x y : Nibble) : Statement (.sub x y) :=
  of_nibble 0x8#4 0x5#4 (family_formatXYN _ _ _ _) (n_formatXYN _ _ _ _) rfl rfl
theorem shr (x y : Nibble) : Statement (.shr x y) :=
  of_nibble 0x8#4 0x6#4 (family_formatXYN _ _ _ _) (n_formatXYN _ _ _ _) rfl rfl
theorem subn (x y : Nibble) : Statement (.subn x y) :=
  of_nibble 0x8#4 0x7#4 (family_formatXYN _ _ _ _) (n_formatXYN _ _ _ _) rfl rfl
theorem shl (x y : Nibble) : Statement (.shl x y) :=
  of_nibble 0x8#4 0xE#4 (family_formatXYN _ _ _ _) (n_formatXYN _ _ _ _) rfl rfl
theorem sneReg (x y : Nibble) : Statement (.sneReg x y) :=
  of_nibble 0x9#4 0x0#4 (family_formatXYN _ _ _ _) (n_formatXYN _ _ _ _) rfl rfl
theorem ldI (nnn : Addr) : Statement (.ldI nnn) :=
  of_family 0xA#4 (family_formatNNN _ _) rfl rfl
theorem jpV0 (nnn : Addr) : Statement (.jpV0 nnn) :=
  of_family 0xB#4 (family_formatNNN _ _) rfl rfl
theorem rnd (x : Nibble) (nn : Byte) : Statement (.rnd x nn) :=
  of_family 0xC#4 (family_formatXNN _ _ _) rfl rfl
theorem drw (x y n : Nibble) : Statement (.drw x y n) :=
  of_family 0xD#4 (family_formatXYN _ _ _ _) rfl rfl
theorem skp (x : Nibble) : Statement (.skp x) :=
  of_byte 0xE#4 0x9E#8 (family_formatXNN _ _ _) (nn_formatXNN _ _ _) rfl rfl
theorem sknp (x : Nibble) : Statement (.sknp x) :=
  of_byte 0xE#4 0xA1#8 (family_formatXNN _ _ _) (nn_formatXNN _ _ _) rfl rfl
theorem ldVxDt (x : Nibble) : Statement (.ldVxDt x) :=
  of_byte 0xF#4 0x07#8 (family_formatXNN _ _ _) (nn_formatXNN _ _ _) rfl rfl
theorem ldVxK (x : Nibble) : Statement (.ldVxK x) :=
  of_byte 0xF#4 0x0A#8 (family_formatXNN _ _ _) (nn_formatXNN _ _ _) rfl rfl
theorem ldDtVx (x : Nibble) : Statement (.ldDtVx x) :=
  of_byte 0xF#4 0x15#8 (family_formatXNN _ _ _) (nn_formatXNN _ _ _) rfl rfl
theorem ldStVx (x : Nibble) : Statement (.ldStVx x) :=
  of_byte 0xF#4 0x18#8 (family_formatXNN _ _ _) (nn_formatXNN _ _ _) rfl rfl
theorem addI (x : Nibble) : Statement (.addI x) :=
  of_byte 0xF#4 0x1E#8 (family_formatXNN _ _ _) (nn_formatXNN _ _ _) rfl rfl
theorem ldF (x : Nibble) : Statement (.ldF x) :=
  of_byte 0xF#4 0x29#8 (family_formatXNN _ _ _) (nn_formatXNN _ _ _) rfl rfl
theorem ldB (x : Nibble) : Statement (.ldB x) :=
  of_byte 0xF#4 0x33#8 (family_formatXNN _ _ _) (nn_formatXNN _ _ _) rfl rfl
theorem ldMemVx (x : Nibble) : Statement (.ldMemVx x) :=
  of_byte 0xF#4 0x55#8 (family_formatXNN _ _ _) (nn_formatXNN _ _ _) rfl rfl
theorem ldVxMem (x : Nibble) : Statement (.ldVxMem x) :=
  of_byte 0xF#4 0x65#8 (family_formatXNN _ _ _) (nn_formatXNN _ _ _) rfl rfl

end Sys2Proof.Laws.Recognized
end

