-- ==== Sys2Proof/Laws/Step.lean ====
section
/-! SUPPORT. The step transaction: which action a step takes, what each action does, and that `withFetchWord` places
an instruction where the next step runs it. -/
namespace Sys2Proof.Machine

/-- The decoder rejects a word by that word's own name. -/
theorem decode_error {w : Word} {e : DecodeError} (h : decode w = .error e) : e = .unrecognized w := by
  unfold decode decodeFamily0 decodeFamily5 decodeFamily8 decodeFamily9 decodeFamilyE decodeFamilyF at h
  repeat' split at h
  all_goals first
    | exact (Except.error.inj h).symm
    | exact absurd h (by simp)

/-- A ready state's step fetches (R265: checks 1 and 2 do not apply, check 3 passes). -/
theorem nextAction_of_ready {s : State} (h : s.Ready) :
    s.nextAction = match decode s.fetchWord with
      | .ok i => .run i
      | .error (.unrecognized w) => .unknown w := by
  obtain ⟨h1, h2, h3⟩ := h
  have : s.canFetch = true := by simpa [State.canFetch] using h3
  have e : s.nextAction = s.fetchAction := by
    unfold State.nextAction
    rw [h1, h2]
    rfl
  exact e.trans (if_pos this)

/-- Every meaning answers a next state. -/
theorem exec_next (i : Instr) (s : State) : ∃ t, exec i s = .next t := by
  cases i with
  | ret => by_cases h : s.sp.val = 0 <;> simp [exec, execRet, h]
  | call nnn => by_cases h : s.sp.val < 16 <;> simp [exec, execCall, h]
  | _ => exact ⟨_, rfl⟩

/-- What a step can do (R80, R265): one case for each action. -/
theorem step_cases {s t : State} (h : step s = .next t) :
    (s.IsHalted ∧ t = s) ∨
    (s.IsBlocked ∧ t = s) ∨
    (s.status = .running ∧ s.awaitingKey = true ∧ ∃ k, s.pendingKey = some k ∧ t = s.completeWait k) ∨
    (s.status = .running ∧ s.awaitingKey = false ∧ 0xFFF < s.pc.toNat + 1 ∧
      t = s.raise (.fetchOutOfBounds s.pc)) ∨
    (s.Ready ∧ decode s.fetchWord = .error (.unrecognized s.fetchWord) ∧ t = s.advance) ∨
    (s.Ready ∧ ∃ i, decode s.fetchWord = .ok i ∧ exec i s = .next t) := by
  unfold step State.nextAction at h
  rcases hst : s.status with _ | e
  · simp only [hst] at h
    by_cases ha : s.awaitingKey = true
    · rcases hp : s.pendingKey with _ | k
      · simp only [ha, hp, if_true, Host.Outcome.next.injEq] at h
        exact .inr (.inl ⟨⟨hst, ha, hp⟩, h.symm⟩)
      · simp only [ha, hp, if_true, Host.Outcome.next.injEq] at h
        exact .inr (.inr (.inl ⟨rfl, ha, k, rfl, h.symm⟩))
    · have ha : s.awaitingKey = false := by simpa using ha
      simp only [ha, Bool.false_eq_true, if_false, State.fetchAction] at h
      by_cases hc : s.canFetch = true
      · have hr : s.Ready := ⟨hst, ha, by simpa [State.canFetch] using hc⟩
        simp only [hc, if_true] at h
        cases hd : decode s.fetchWord with
        | error e =>
          have he := decode_error hd
          subst he
          simp only [hd, execUnknown, Host.Outcome.next.injEq] at h
          exact .inr (.inr (.inr (.inr (.inl ⟨hr, rfl, h.symm⟩))))
        | ok i =>
          simp only [hd] at h
          exact .inr (.inr (.inr (.inr (.inr ⟨hr, i, rfl, h⟩))))
      · simp only [hc, Bool.false_eq_true, if_false, Host.Outcome.next.injEq] at h
        have : 0xFFF < s.pc.toNat + 1 := by
          have := hc
          simp only [State.canFetch, decide_eq_true_eq] at this
          omega
        exact .inr (.inr (.inr (.inl ⟨rfl, ha, this, h.symm⟩)))
  · simp only [hst, Host.Outcome.next.injEq] at h
    exact .inl ⟨⟨e, hst⟩, h.symm⟩

/-! ## `withFetchWord` -/

/-- The bytes of a word in address order make the word (R58). -/
theorem opcodeOf_bytesOf (w : Word) : opcodeOf (bytesOf w).1 (bytesOf w).2 = w := by
  apply BitVec.eq_of_toNat_eq
  have := w.isLt
  simp only [opcodeOf, bytesOf, BitVec.toNat_append, BitVec.extractLsb'_toNat,
    Nat.shiftRight_eq_div_pow]
  rw [← Nat.shiftLeft_add_eq_or_of_lt (by omega), Nat.shiftLeft_eq]
  omega

/-- The opcode placed at PC is the opcode fetched. -/
theorem fetchWord_placeOpcode (s : State) (w : Word) : (s.placeOpcode w).fetchWord = w := by
  have hne : s.pc.setWidth 12 ≠ s.pc.setWidth 12 + 1#12 := by
    intro h
    have := congrArg BitVec.toNat h
    simp only [BitVec.toNat_add, BitVec.toNat_setWidth, BitVec.toNat_ofNat] at this
    omega
  have hpc : (s.placeOpcode w).pc = s.pc := rfl
  unfold State.fetchWord
  rw [hpc]
  unfold State.placeOpcode
  rw [readByte_writeByte_same, readByte_writeByte_other _ hne, readByte_writeByte_same, opcodeOf_bytesOf]

/-- A ready state needs no preparation: `withFetchWord` then changes memory only. -/
theorem readyToFetch_of_ready {s : State} (h : s.Ready) : s.readyToFetch = s := by
  obtain ⟨h1, h2, h3⟩ := h
  have : s.canFetch = true := by simpa [State.canFetch] using h3
  unfold State.readyToFetch
  rw [this, h2, if_pos rfl, if_neg (by simp), ← h2, ← h1]

theorem ready_readyToFetch (s : State) (w : Word) : (s.readyToFetch.placeOpcode w).Ready := by
  refine ⟨rfl, rfl, ?_⟩
  show (if s.canFetch then s.pc else 0x200#16).toNat + 1 ≤ 0xFFF
  split
  · rename_i h; simpa [State.canFetch] using h
  · decide

/-- The very next step of `s.withFetchWord nbits w` runs exactly the instruction those bits decode to. -/
theorem step_withFetchWord {s : State} {nbits w : Nat} {i : Instr} (h : decodeTableWord nbits w = some i) :
    step (s.withFetchWord nbits w) = exec i (s.withFetchWord nbits w) := by
  have hd : decode (tableWord nbits w) = .ok i := by
    unfold decodeTableWord decodeBytes at h
    rw [opcodeOf_bytesOf] at h
    split at h
    · rename_i heq; rw [heq]; exact congrArg _ (Option.some.inj h)
    · exact absurd h (by simp)
  have hr := ready_readyToFetch s (tableWord nbits w)
  unfold step State.withFetchWord
  rw [nextAction_of_ready hr, fetchWord_placeOpcode, hd]

end Sys2Proof.Machine
end

