-- ==== Sys2Proof/Tests/Slice0.lean ====
section
/-! SUPPORT. The model's own tests. The decode tests write words out from the map of 30_encoding.md R75; the step tests
take their values from spec/95_test_vectors.md (its vector is named at each) or from the examples of the rules; the
witnesses show, for each statement of Certificates/Slice0/Obligations.lean that has hypotheses, a concrete input that
meets them, at the boundaries of their ranges. -/
namespace Sys2Proof.Tests
open Sys2Proof Sys2Proof.Machine

/-- The state an outcome leaves, if it is a next state. -/
def after (o : Host.Outcome State Fault Refusal) : Option State :=
  match o with
  | .next t => some t
  | _ => none

/-- The result a host operation returns, if it returns. -/
def result (o : Host.Outcome (HostResult × State) Fault Refusal) : Option HostResult :=
  match o with
  | .next p => some p.1
  | _ => none

/-- The state a host operation leaves, if it returns. -/
def left (o : Host.Outcome (HostResult × State) Fault Refusal) : Option State :=
  match o with
  | .next p => some p.2
  | _ => none

/-- A constructed machine with these V registers. -/
def start (regs : List (Nibble × Byte)) : State := regs.foldl (fun s r => s.setV r.1 r.2) State.reset

/-- The state after one step that fetches the word `op`. -/
def run (s : State) (op : Nat) : Option State := after (step (s.withFetchWord 16 op))

/-- A constructed machine with the other value of VF_ORDER. -/
def flagLast (s : State) : State := { s with cfg := { s.cfg with vfOrder := .flagLast } }

/-- A constructed machine with the other value of KEY_OOR. -/
def lowNibble (s : State) : State := { s with cfg := { s.cfg with keyOor := .lowNibble } }

/-- A machine blocked in a key wait for V3 (vector W5). -/
def waiting : State := { State.reset with awaitingKey := true, awaitReg := 3, pc := 0x202 }

/-! ## Well-formedness: a word that each discriminator of R74 refuses -/

theorem test_illformed_family_0 : recognized 0x00E1#16 = false ∧ discriminated 0x00E1#16 = false := by decide
theorem test_illformed_family_5 : recognized 0x5121#16 = false ∧ discriminated 0x5121#16 = false := by decide
theorem test_illformed_family_8 : recognized 0x800F#16 = false ∧ discriminated 0x8008#16 = false := by decide
theorem test_illformed_family_9 : recognized 0x9001#16 = false ∧ discriminated 0x9001#16 = false := by decide
theorem test_illformed_family_E : recognized 0xE09F#16 = false ∧ discriminated 0xE09F#16 = false := by decide
theorem test_illformed_family_F : recognized 0xF0FF#16 = false ∧ discriminated 0xFFFF#16 = false := by decide
theorem test_wellformed : recognized 0x8AB6#16 = true ∧ discriminated 0xEFA1#16 = true := by decide
theorem test_rows_overlap_refused : OpcodeRow.disjoint ⟨0xF000#16, 0x5000#16⟩ ⟨0xF00F#16, 0x5001#16⟩ = false := by decide

/-! ## Decoding: a word of every constructor, bit 0 the least significant (spec/opcode_table.json's numbering) -/

theorem test_decode_family_0 :
    decodeTableWord 16 0x00E0 = some .cls ∧ decodeTableWord 16 0x00EE = some .ret ∧
    decodeTableWord 16 0x0123 = none := by decide
theorem test_decode_families_1_2 :
    decodeTableWord 16 0x1ABC = some (.jp 0xABC) ∧ decodeTableWord 16 0x2DEF = some (.call 0xDEF) := by decide
theorem test_decode_families_3_4 :
    decodeTableWord 16 0x3342 = some (.seImm 3 0x42) ∧ decodeTableWord 16 0x4A17 = some (.sneImm 0xA 0x17) := by decide
theorem test_decode_families_5_9 :
    decodeTableWord 16 0x5120 = some (.seReg 1 2) ∧ decodeTableWord 16 0x9CD0 = some (.sneReg 0xC 0xD) := by decide
theorem test_decode_families_6_7 :
    decodeTableWord 16 0x6A3C = some (.ldImm 0xA 0x3C) ∧ decodeTableWord 16 0x7220 = some (.addImm 2 0x20) := by decide
theorem test_decode_family_8_logic :
    decodeTableWord 16 0x8010 = some (.ldReg 0 1) ∧ decodeTableWord 16 0x8231 = some (.orReg 2 3) ∧
    decodeTableWord 16 0x8452 = some (.andReg 4 5) ∧ decodeTableWord 16 0x8673 = some (.xorReg 6 7) := by decide
theorem test_decode_family_8_flags :
    decodeTableWord 16 0x8894 = some (.addReg 8 9) ∧ decodeTableWord 16 0x8AB5 = some (.sub 0xA 0xB) ∧
    decodeTableWord 16 0x8AB6 = some (.shr 0xA 0xB) ∧ decodeTableWord 16 0x8CD7 = some (.subn 0xC 0xD) ∧
    decodeTableWord 16 0x800E = some (.shl 0 0) := by decide
theorem test_decode_families_A_to_D :
    decodeTableWord 16 0xA300 = some (.ldI 0x300) ∧ decodeTableWord 16 0xB1FE = some (.jpV0 0x1FE) ∧
    decodeTableWord 16 0xC50F = some (.rnd 5 0x0F) ∧ decodeTableWord 16 0xD12F = some (.drw 1 2 0xF) := by decide
theorem test_decode_family_E :
    decodeTableWord 16 0xE59E = some (.skp 5) ∧ decodeTableWord 16 0xEFA1 = some (.sknp 0xF) := by decide
theorem test_decode_family_F_timers :
    decodeTableWord 16 0xF307 = some (.ldVxDt 3) ∧ decodeTableWord 16 0xF30A = some (.ldVxK 3) ∧
    decodeTableWord 16 0xF415 = some (.ldDtVx 4) ∧ decodeTableWord 16 0xF418 = some (.ldStVx 4) := by decide
theorem test_decode_family_F_memory :
    decodeTableWord 16 0xF21E = some (.addI 2) ∧ decodeTableWord 16 0xF229 = some (.ldF 2) ∧
    decodeTableWord 16 0xFA33 = some (.ldB 0xA) ∧ decodeTableWord 16 0xF255 = some (.ldMemVx 2) ∧
    decodeTableWord 16 0xF165 = some (.ldVxMem 1) := by decide
/-- R58: the byte at the lower address holds op[15:8]. -/
theorem test_encode_big_endian : encodeBytes (.ldImm 0xA 0x3C) = (0x6A, 0x3C) := by decide

/-! ## Fetch (vectors of L2.1) -/

theorem test_fetch_at_0xFFE : (run { State.reset with pc := 0xFFE } 0x00E0).map (·.pc) = some 0x1000 := by decide
theorem test_fetch_odd_pc :
    (run { State.reset with pc := 0x201 } 0x6005).map (fun t => (t.getV 0, t.pc)) = some (5, 0x203) := by decide
theorem test_fetch_out_of_bounds :
    (after (step { State.reset with pc := 0xFFF })).map (fun t => (t.status, t.pc))
      = some (.halted (.fetchOutOfBounds 0xFFF), 0xFFF) := by decide
/-- L1.10. -/
theorem test_unknown_opcode :
    result (opStep (State.reset.withFetchWord 16 0x5001)) = some (.stepped (.unknownOpcode 0x5001 0x200)) := by decide

/-! ## Display (vectors D2, D4, D9, D11) -/

theorem test_cls :
    (run { start [(0xF, 0x33)] with fb := togglePixel clearedFb 5 5 } 0x00E0).map
      (fun t => (t.fb, t.dirty, t.getV 0xF, t.pc)) = some (clearedFb, true, 0x33, 0x202) := by decide
/-- D4: columns 62, 63 and, wrapped, 0 to 5. -/
theorem test_drw_wraps_columns :
    (run ({ start [(0, 62)] with index := 0x300 }.writeByte 0x300 0xFF) 0xD011).map
      (fun t => (t.fb[0], t.fb[1], t.getV 0xF)) = some (0xC00000000000003F, 0, 0) := by decide
/-- D7: one pixel set, one cleared. -/
theorem test_drw_collision :
    (run ({ State.reset with index := 0x300, fb := togglePixel clearedFb 1 0 }.writeByte 0x300 0xC0) 0xD011).map
      (fun t => (t.fb[0], t.getV 0xF, t.dirty)) = some (1, 1, true) := by decide

/-! ## Control transfer (vectors T5 to T14) -/

theorem test_ret :
    (run { State.reset with sp := 1, stack := State.reset.stack.set 0 0x206, pc := 0x312 } 0x00EE).map
      (fun t => (t.sp, t.pc, t.stack[0])) = some (0, 0x206, 0x206) := by decide
theorem test_ret_underflow :
    (run { State.reset with pc := 0x312 } 0x00EE).map (fun t => (t.status, t.sp, t.pc))
      = some (.halted (.stackUnderflow 0x312), 0, 0x312) := by decide
theorem test_jp : (run { State.reset with pc := 0x204 } 0x1208).map (·.pc) = some 0x208 := by decide
theorem test_call :
    (run { State.reset with sp := 15, pc := 0x300 } 0x2400).map (fun t => (t.stack[15], t.sp, t.pc))
      = some (0x302, 16, 0x400) := by decide
theorem test_call_overflow :
    (run { State.reset with sp := 16, pc := 0x300 } 0x2400).map (fun t => (t.status, t.sp, t.pc))
      = some (.halted (.stackOverflow 0x300), 16, 0x300) := by decide
theorem test_jpV0 : (run (start [(0, 0x02), (1, 0x50)]) 0xB1FE).map (·.pc) = some 0x200 := by decide
theorem test_jpV0_not_masked : (run (start [(0, 0xFF)]) 0xBFFF).map (·.pc) = some 0x10FE := by decide

/-! ## Skips (vectors S1 to S12, K1 to K6) -/

theorem test_seImm : (run (start [(3, 0x42)]) 0x3342).map (·.pc) = some 0x204 ∧
    (run (start [(3, 0x41)]) 0x3342).map (·.pc) = some 0x202 := by decide
theorem test_sneImm : (run (start [(3, 0x41)]) 0x4342).map (·.pc) = some 0x204 ∧
    (run (start [(3, 0x42)]) 0x4342).map (·.pc) = some 0x202 := by decide
theorem test_seReg : (run (start [(1, 7), (2, 7)]) 0x5120).map (·.pc) = some 0x204 ∧
    (run (start [(1, 7), (2, 8)]) 0x5120).map (·.pc) = some 0x202 := by decide
theorem test_sneReg : (run (start [(1, 7), (2, 8)]) 0x9120).map (·.pc) = some 0x204 ∧
    (run (start [(1, 7)]) 0x9110).map (·.pc) = some 0x202 := by decide
theorem test_skp : (run ((start [(5, 0x0A)]).setKeyBit 0xA true) 0xE59E).map (·.pc) = some 0x204 ∧
    (run (start [(5, 0x0A)]) 0xE59E).map (·.pc) = some 0x202 := by decide
theorem test_sknp : (run (start [(5, 0x0A)]) 0xE5A1).map (·.pc) = some 0x204 ∧
    (run ((start [(5, 0x0A)]).setKeyBit 0xA true) 0xE5A1).map (·.pc) = some 0x202 := by decide
/-- K5 and K6. -/
theorem test_skp_out_of_range : (run ((start [(5, 0x10)]).setKeyBit 0 true) 0xE59E).map (·.pc) = some 0x202 ∧
    (run (lowNibble ((start [(5, 0x10)]).setKeyBit 0 true)) 0xE59E).map (·.pc) = some 0x204 := by decide

/-! ## ALU (vectors A1 to A32) -/

theorem test_ldImm : (run State.reset 0x6A7F).map (fun t => (t.getV 0xA, t.pc)) = some (0x7F, 0x202) := by decide
theorem test_addImm : (run (start [(0, 0xFF), (0xF, 0x55)]) 0x7001).map (fun t => (t.getV 0, t.getV 0xF))
    = some (0, 0x55) := by decide
theorem test_ldReg : (run (start [(1, 0x9C)]) 0x8010).map (fun t => (t.getV 0, t.getV 1)) = some (0x9C, 0x9C) := by decide
theorem test_orReg : (run (start [(0, 0x3C), (1, 0x0F), (0xF, 0x77)]) 0x8011).map (fun t => (t.getV 0, t.getV 0xF))
    = some (0x3F, 0x77) := by decide
theorem test_andReg : (run (start [(0, 0x3C), (1, 0x0F), (0xF, 0x77)]) 0x8012).map (fun t => (t.getV 0, t.getV 0xF))
    = some (0x0C, 0x77) := by decide
theorem test_xorReg : (run (start [(0, 0x3C), (1, 0x0F), (0xF, 0x77)]) 0x8013).map (fun t => (t.getV 0, t.getV 0xF))
    = some (0x33, 0x77) := by decide
/-- L1.2, A9: a sum of 256 carries, 255 does not. -/
theorem test_addReg : (run (start [(0, 0xFF), (1, 1)]) 0x8014).map (fun t => (t.getV 0, t.getV 0xF)) = some (0, 1) ∧
    (run (start [(0, 0x80), (1, 0x7F)]) 0x8014).map (fun t => (t.getV 0, t.getV 0xF)) = some (0xFF, 0) := by decide
/-- A13. -/
theorem test_addReg_vf : (run (start [(0xF, 0xFF), (1, 1)]) 0x8F14).map (·.getV 0xF) = some 0 ∧
    (run (flagLast (start [(0xF, 0xFF), (1, 1)])) 0x8F14).map (·.getV 0xF) = some 1 := by decide
/-- L1.3, A14. -/
theorem test_sub : (run (start [(0, 1), (1, 2)]) 0x8015).map (fun t => (t.getV 0, t.getV 0xF)) = some (0xFF, 0) ∧
    (run (start [(0, 5), (1, 5)]) 0x8015).map (fun t => (t.getV 0, t.getV 0xF)) = some (0, 1) := by decide
/-- A16. -/
theorem test_sub_vf : (run (start [(0xF, 5), (1, 3)]) 0x8F15).map (·.getV 0xF) = some 2 ∧
    (run (flagLast (start [(0xF, 5), (1, 3)])) 0x8F15).map (·.getV 0xF) = some 1 := by decide
/-- A19, A20. -/
theorem test_shr : (run (start [(0, 0xFF)]) 0x8006).map (fun t => (t.getV 0, t.getV 0xF)) = some (0x7F, 1) ∧
    (run (start [(0, 4), (1, 0xFF)]) 0x8016).map (fun t => (t.getV 0, t.getV 0xF)) = some (2, 0) := by decide
/-- A22, A23. -/
theorem test_subn : (run (start [(0, 2), (1, 1)]) 0x8017).map (fun t => (t.getV 0, t.getV 0xF)) = some (0xFF, 0) ∧
    (run (start [(0, 1), (1, 5)]) 0x8017).map (fun t => (t.getV 0, t.getV 0xF)) = some (4, 1) := by decide
/-- A25, A27. -/
theorem test_shl : (run (start [(0, 0x81)]) 0x800E).map (fun t => (t.getV 0, t.getV 0xF)) = some (2, 1) ∧
    (run (start [(0, 0x80)]) 0x80FE).map (fun t => (t.getV 0, t.getV 0xF)) = some (0, 1) := by decide
/-- A31: the draw itself. -/
theorem test_rnd : (run State.reset 0xC0FF).map (fun t => (t.getV 0, t.draws))
    = some (Config.randomByte 0 &&& 0xFF, 1) := rfl

/-! ## Index register and memory (vectors M1 to M18) -/

theorem test_ldI : (run State.reset 0xAFFF).map (·.index) = some 0xFFF := by decide
/-- L1.12. -/
theorem test_addI : (run { start [(0, 1), (0xF, 0x77)] with index := 0xFFF } 0xF01E).map
    (fun t => (t.index, t.getV 0xF)) = some (0, 0x77) := by decide
theorem test_ldF : (run (start [(2, 0x10)]) 0xF229).map (·.index) = some 0x050 ∧
    (run (start [(2, 0xFF)]) 0xF229).map (·.index) = some 0x4FB := by decide
/-- L1.5. -/
theorem test_ldB : (run { start [(0, 234)] with index := 0x300 } 0xF033).map
    (fun t => (t.readByte 0x300, t.readByte 0x301, t.readByte 0x302, t.readByte 0x303)) = some (2, 3, 4, 0) := by decide
/-- M12: the third byte wraps into the font. -/
theorem test_ldB_wraps : (run { start [(0, 100)] with index := 0xFFE } 0xF033).map
    (fun t => (t.readByte 0xFFE, t.readByte 0xFFF, t.readByte 0x000, t.index)) = some (1, 0, 0, 0xFFE) := by decide
/-- M13. -/
theorem test_ldMemVx : (run { start [(0, 1), (1, 2), (2, 3), (3, 9)] with index := 0x400 } 0xF255).map
    (fun t => (t.readByte 0x400, t.readByte 0x402, t.readByte 0x403, t.index)) = some (1, 3, 0, 0x400) := by decide
/-- M18, with the default FONT. -/
theorem test_ldVxMem : (run ({ start [(2, 0x99)] with index := 0xFFF }.writeByte 0xFFF 0x5A) 0xF165).map
    (fun t => (t.getV 0, t.getV 1, t.getV 2)) = some (0x5A, 0xF0, 0x99) := by decide

/-! ## Timers, keys and host operations (vectors W1 to W14, TM1 to TM7, H1 to H8) -/

theorem test_ldVxDt : (run { State.reset with dt := 0x2A } 0xF307).map (·.getV 3) = some 0x2A := by decide
theorem test_ldDtVx : (run { start [(4, 60)] with tAcc := 7 } 0xF415).map (fun t => (t.dt, t.tAcc)) = some (60, 7) := by decide
theorem test_ldStVx : (run (start [(4, 5)]) 0xF418).map (·.st) = some 5 := by decide
/-- W5. -/
theorem test_ldVxK : (run State.reset 0xF30A).map (fun t => (t.awaitingKey, t.awaitReg, t.pendingKey, t.pc))
    = some (true, 3, none, 0x202) := by decide
/-- W7. -/
theorem test_key_wait_completes :
    ((left (transact (.setKey 0xB true) waiting)).bind (fun s => after (step s))).map
      (fun t => (t.getV 3, t.keyBit 0xB, t.awaitingKey, t.pc)) = some (0x0B, false, false, 0x202) := by decide
/-- W9, W10. -/
theorem test_release_never_captures : (left (transact (.setKey 4 false) waiting)).map (·.pendingKey) = some none ∧
    ((left (transact (.setKey 2 true) waiting)).bind (fun s => left (transact (.setKey 9 true) s))).map (·.pendingKey)
      = some (some 2) := by decide
/-- TM2, TM6, TM7. -/
theorem test_tickTimers :
    (left (transact (.tickTimers 17) { State.reset with dt := 5 })).map (fun t => (t.tAcc, t.dt)) = some (1, 4) ∧
    (left (transact (.tickTimers 0) { State.reset with tAcc := 50, dt := 1 })).map (fun t => (t.tAcc, t.dt)) = some (50, 1) ∧
    (left (transact (.tickTimers 34) { State.reset with dt := 10, st := 1 })).map (fun t => (t.tAcc, t.dt, t.st))
      = some (2, 8, 0) := by decide
/-- H8: the tail is kept. -/
theorem test_load : (left (transact (.load [0xAB]) ((State.reset.writeByte 0x200 0x12).writeByte 0x201 0x34))).map
    (fun t => (t.readByte 0x200, t.readByte 0x201)) = some (0xAB, 0x34) := by decide
/-- L2.10: the font is restored, memory above it, the latch and the framebuffer are kept. -/
theorem test_reset :
    (left (transact .reset { ((start [(0, 1)]).writeByte 0 0x12).writeByte 0x300 0x99 with
        status := .halted (.stackOverflow 0x456), sp := 3, dirty := true })).map
      (fun t => (t.getV 0, t.readByte 0, t.readByte 0x300, t.status, t.sp, t.dirty))
      = some (0, 0xF0, 0x99, .running, 0, true) := by decide
/-- H2. -/
theorem test_consume : (left (transact .consumeFramebuffer { State.reset with dirty := true })).map (·.dirty)
    = some false := by decide

/-! ## How a program comes to run (log 25) -/

/-- P7: nothing loaded, the word at 0x200 is 0x0000, an unrecognized one. -/
theorem test_first_step_from_reset :
    result (opStep State.reset) = some (.stepped (.unknownOpcode 0x0000 0x200)) := by decide
theorem test_withFetchWord_halted_core :
    (run { waiting with status := .halted (.fetchOutOfBounds 0xFFF), pc := 0xFFF } 0x6005).map
      (fun t => (t.getV 0, t.pc)) = some (5, 0x202) := by decide

/-! ## Witnesses: inputs that meet the hypotheses of the statements

One theorem for each statement with hypotheses, named after it; several parts where it has several clauses, at the
boundary values of each. -/

theorem witness_EncodeAfterDecode : decode 0xD015#16 = .ok (.drw 0 1 5) := rfl

/-- A word at the boundary of each clause. -/
theorem witness_RejectedWordsExactly :
    decode 0x00E1#16 = .error (.unrecognized 0x00E1#16) ∧ decode 0x5121#16 = .error (.unrecognized 0x5121#16) ∧
    decode 0x800D#16 = .error (.unrecognized 0x800D#16) ∧ decode 0x9001#16 = .error (.unrecognized 0x9001#16) ∧
    decode 0xE0A2#16 = .error (.unrecognized 0xE0A2#16) ∧ decode 0xF066#16 = .error (.unrecognized 0xF066#16) :=
  ⟨rfl, rfl, rfl, rfl, rfl, rfl⟩

theorem witness_MapRowsDisjointAndDecoded :
    (⟨0xF00F#16, 0x8004#16⟩ : OpcodeRow) ∈ opcodeTable ∧
      OpcodeRow.matches ⟨0xF00F#16, 0x8004#16⟩ 0x8014#16 = true ∧ recognized 0x8014#16 = true := by decide

/-- PC = 0xFFE, the last slot, and an instruction there. -/
theorem witness_StepRunsDecoded :
    ∃ s : State, s.Ready ∧ s.pc = 0xFFE ∧
      decode (BitVec.ofNat 16 ((s.readByte (BitVec.ofNat 12 s.pc.toNat)).toNat * 256
        + (s.readByte (BitVec.ofNat 12 (s.pc.toNat + 1))).toNat)) = .ok .cls :=
  ⟨{ State.reset with pc := 0xFFE }.withFetchWord 16 0x00E0, ⟨rfl, rfl, by decide⟩, rfl, rfl⟩

/-- PC = 0xFFF is out of bounds, PC = 0xFFE is not. -/
theorem witness_FetchBoundAndByteOrder :
    (∃ s : State, s.status = .running ∧ s.awaitingKey = false ∧ 0xFFF < s.pc.toNat + 1) ∧
    (∃ s : State, s.status = .running ∧ s.awaitingKey = false ∧ s.pc.toNat + 1 = 0xFFF) :=
  ⟨⟨{ State.reset with pc := 0xFFF }, rfl, rfl, by decide⟩, ⟨{ State.reset with pc := 0xFFE }, rfl, rfl, by decide⟩⟩

theorem witness_UnknownWordIsNoop :
    ∃ s : State, s.Ready ∧ decode s.fetchWord = .error (.unrecognized s.fetchWord) ∧ s.pc = 0xFFE#16 :=
  ⟨{ State.reset with pc := 0xFFE }, ⟨rfl, rfl, by decide⟩, rfl, rfl⟩

theorem witness_HaltedStepInert :
    ∃ s : State, s.status = .halted (.stackUnderflow 0x312) := ⟨{ State.reset with status := .halted (.stackUnderflow 0x312) }, rfl⟩

theorem witness_BlockedStepInert : waiting.IsBlocked := ⟨rfl, rfl, rfl⟩

/-- A wait of VF with key F captured, so that the register is VF. -/
theorem witness_KeyWaitCompletes :
    ∃ s : State, s.status = .running ∧ s.awaitingKey = true ∧ s.pendingKey = some 0xF#4 ∧ s.awaitReg = regF ∧
      s.pc.toNat + 1 ≤ 0xFFF :=
  ⟨{ waiting with pendingKey := some 0xF#4, awaitReg := regF }, rfl, rfl, rfl, rfl, by decide⟩

/-- A call that overflows the full stack, and a return from the empty one, are decoded at PC. -/
theorem witness_StepReportPriority :
    decode ({ State.reset with sp := 16 }.withFetchWord 16 0x2400).fetchWord = .ok (.call 0x400) ∧
    decode (State.reset.withFetchWord 16 0x00EE).fetchWord = .ok .ret := ⟨rfl, rfl⟩

theorem witness_FatalErrorWritesNothing :
    ∃ s t : State, s.status = .running ∧ step s = .next t ∧ t.status = .halted (.stackOverflow 0x200) :=
  ⟨{ State.reset with sp := 16 }.withFetchWord 16 0x2400, _, rfl, rfl, rfl⟩

/-- A covered pixel that is set (collision), one that is clear, and one not covered. -/
theorem witness_DrwTogglesCoveredPixels :
    State.reset.drawCovers 0 1 5 0 0 ∧ ¬ State.reset.drawCovers 0 1 0 0 0 ∧
    pixel State.reset.fb 0 0 = false ∧ pixel (togglePixel clearedFb 0 0) 0 0 = true :=
  ⟨⟨0, by decide, 0, by decide, rfl, rfl, rfl⟩, fun ⟨_, h, _⟩ => absurd h (Nat.not_lt_zero _), rfl, by decide⟩

/-- The same sprite drawn twice; on a clear screen a covered pixel was 0, and with N = 0 nothing is covered. -/
theorem witness_DrwTwiceRestores :
    (∃ s t u w : State, exec (.drw 0 1 5) s = .next t ∧ exec (.drw 0 1 5) u = .next w ∧ u.fb = t.fb ∧
      u.index = s.index ∧ u.getV 0 = s.getV 0 ∧ u.getV 1 = s.getV 1 ∧
      (∀ r, r < 5 → u.byteAtIndex r = s.byteAtIndex r) ∧ s.drawCovers 0 1 5 0 0 ∧ pixel s.fb 0 0 = false) ∧
    (∀ s : State, ∀ px py, px < 64 → py < 32 → ¬ s.drawCovers 0 1 0 px py) :=
  ⟨⟨State.reset, _, _, _, rfl, rfl, rfl, rfl, rfl, rfl, fun _ _ => rfl,
    ⟨0, by decide, 0, by decide, rfl, rfl, rfl⟩, rfl⟩, fun _ _ _ _ _ ⟨_, h, _⟩ => absurd h (Nat.not_lt_zero _)⟩

/-- One covered pixel, set before the first draw. -/
theorem witness_DrwTwiceRestores_all_set :
    ∃ s : State, (∃ px py, px < 64 ∧ py < 32 ∧ s.drawCovers 0 1 1 px py) ∧
      (∀ px py, px < 64 → py < 32 → s.drawCovers 0 1 1 px py → pixel s.fb px py = true) :=
  ⟨{ State.reset with fb := Vector.replicate 32 (BitVec.allOnes 64) },
    ⟨0, 0, by decide, by decide, 0, by decide, 0, by decide, rfl, rfl, rfl⟩, fun px py _ _ _ => by
      simp only [pixel, Vector.getElem_replicate, BitVec.getLsbD_allOnes, decide_eq_true_eq]
      omega⟩

/-- SP = 1 pops, SP = 0 underflows. -/
theorem witness_RetPopsOrUnderflows :
    ({ State.reset with sp := 1 } : State).sp.val ≠ 0 ∧ State.reset.sp.val = 0 := by decide

/-- SP = 15 pushes, SP = 16 overflows. -/
theorem witness_CallPushesOrOverflows :
    ({ State.reset with sp := 15 } : State).sp.val < 16 ∧ ({ State.reset with sp := 16 } : State).sp.val = 16 := by decide

theorem witness_RetUndoesCall :
    ∃ s t u : State, s.sp.val < 16 ∧ exec (.call 0x400) s = .next t ∧ u.sp = t.sp ∧
      ∀ h : s.sp.val < 16, u.stack[s.sp.val]'h = t.stack[s.sp.val]'h :=
  ⟨{ State.reset with sp := 15 }, _, _, by decide, rfl, rfl, fun _ => rfl⟩

theorem witness_LiveStackEntriesKept :
    ∃ s t : State, step s = .next t ∧ (15 : Nat) < s.sp.val :=
  ⟨{ State.reset with sp := 16 }.withFetchWord 16 0x00EE, _, rfl, by decide⟩

/-- V5 = 15 is the last key; V5 = 16 is out of range, under each value of KEY_OOR. -/
theorem witness_KeySkipsReadLatch :
    (∃ (s : State) (pressed : Bool), (s.getV 5).toNat = 15 ∧
      pressed = s.keyBit (BitVec.ofNat 4 (s.getV 5).toNat)) ∧
    (∃ (s : State) (pressed : Bool), 16 ≤ (s.getV 5).toNat ∧ s.cfg.keyOor = .notPressed ∧ pressed = false) ∧
    (∃ (s : State) (pressed : Bool), 16 ≤ (s.getV 5).toNat ∧ s.cfg.keyOor = .lowNibble ∧
      pressed = s.keyBit (BitVec.ofNat 4 ((s.getV 5).toNat % 16))) :=
  ⟨⟨start [(5, 15)], _, by decide, rfl⟩, ⟨start [(5, 16)], _, by decide, rfl, rfl⟩,
    ⟨lowNibble (start [(5, 16)]), _, by decide, rfl, rfl⟩⟩

/-- A sum of 256 and one of 255, with X = F too under each value of VF_ORDER. -/
theorem witness_AddSetsCarry :
    (∃ (s : State) (result flag : Byte), result.toNat = ((s.getV 0).toNat + (s.getV 1).toNat) % 256 ∧
      flag = (if 255 < (s.getV 0).toNat + (s.getV 1).toNat then 1#8 else 0#8) ∧ flag = 1#8) ∧
    (∃ (s : State) (result flag : Byte), result.toNat = ((s.getV 0).toNat + (s.getV 1).toNat) % 256 ∧
      flag = (if 255 < (s.getV 0).toNat + (s.getV 1).toNat then 1#8 else 0#8) ∧ flag = 0#8) ∧
    (start []).cfg.vfOrder = .resultLast ∧ (flagLast (start [])).cfg.vfOrder = .flagLast :=
  ⟨⟨start [(0, 0xFF), (1, 1)], 0, 1, by decide⟩, ⟨start [(0, 0x80), (1, 0x7F)], 0xFF, 0, by decide⟩, rfl, rfl⟩

/-- Equal operands (no borrow) and operands one apart (borrow). -/
theorem witness_SubSetsNoBorrow :
    (∃ (s : State) (result flag : Byte), result.toNat = ((s.getV 0).toNat + 256 - (s.getV 1).toNat) % 256 ∧
      flag = (if (s.getV 1).toNat ≤ (s.getV 0).toNat then 1#8 else 0#8) ∧ flag = 1#8) ∧
    (∃ (s : State) (result flag : Byte), result.toNat = ((s.getV 0).toNat + 256 - (s.getV 1).toNat) % 256 ∧
      flag = (if (s.getV 1).toNat ≤ (s.getV 0).toNat then 1#8 else 0#8) ∧ flag = 0#8) :=
  ⟨⟨start [(0, 5), (1, 5)], 0, 1, by decide⟩, ⟨start [(0, 1), (1, 2)], 0xFF, 0, by decide⟩⟩

theorem witness_SubnSetsNoBorrow :
    (∃ (s : State) (result flag : Byte), result.toNat = ((s.getV 1).toNat + 256 - (s.getV 0).toNat) % 256 ∧
      flag = (if (s.getV 0).toNat ≤ (s.getV 1).toNat then 1#8 else 0#8) ∧ flag = 1#8) ∧
    (∃ (s : State) (result flag : Byte), result.toNat = ((s.getV 1).toNat + 256 - (s.getV 0).toNat) % 256 ∧
      flag = (if (s.getV 0).toNat ≤ (s.getV 1).toNat then 1#8 else 0#8) ∧ flag = 0#8) :=
  ⟨⟨start [(0, 5), (1, 5)], 0, 1, by decide⟩, ⟨start [(0, 2), (1, 1)], 0xFF, 0, by decide⟩⟩

theorem witness_ShrShiftsVx :
    ∃ (s : State) (result flag : Byte), result.toNat = (s.getV 0).toNat / 2 ∧ flag.toNat = (s.getV 0).toNat % 2 ∧
      flag = 1#8 :=
  ⟨start [(0, 0xFF)], 0x7F, 1, by decide⟩

theorem witness_ShlShiftsVx :
    ∃ (s : State) (result flag : Byte), result.toNat = (s.getV 0).toNat * 2 % 256 ∧
      flag.toNat = (s.getV 0).toNat / 128 ∧ flag = 1#8 :=
  ⟨start [(0, 0x81)], 2, 1, by decide⟩

/-- A mask bit that is 0, and the mask 0xFF. -/
theorem witness_RndMasksDraw : (0x0F#8).getLsbD 4 = false ∧ (0xFF#8 : Byte) = 0xFF#8 := by decide

theorem witness_OnlyNamedRegistersWritten :
    ∃ s t : State, exec (.addReg 0 1) s = .next t ∧ writesV (.addReg 0 1) 1 = false ∧
      writesV (.addReg 0 1) 0xF = true := ⟨State.reset, _, rfl, by decide⟩

/-- The last pair of bytes that FX55 with X = 1 stores, just below the top of memory. -/
theorem witness_StoredCodeIsFetched :
    ∃ (s t u : State), exec (.ldMemVx 1) s = .next t ∧ 0 + 1 ≤ (1 : Nibble).toNat ∧ u = { t with pc := u.pc } ∧
      u.pc.toNat = s.index.toNat + 0 ∧ u.pc.toNat + 1 ≤ 0xFFF :=
  ⟨{ State.reset with index := 0xFFE }, _, { State.reset with index := 0xFFE }.storeRegs 1 |>.setPc 0xFFE,
    rfl, by decide, rfl, by decide, by decide⟩

theorem witness_KeyWaitEntered : State.reset.status = .running := rfl

/-- 50 units give no tick, 51 give one, 100 give one, 101 give two. -/
theorem witness_TickTimersCatchesUp :
    (2 + 3 * 16 ≤ 50 ∧ (0 : Nat) = 0) ∧ (50 * 1 < 0 + 3 * 17 ∧ 0 + 3 * 17 ≤ 50 * (1 + 1)) ∧
    (50 * 1 < 1 + 3 * 33 ∧ 1 + 3 * 33 ≤ 50 * (1 + 1)) ∧ (50 * 2 < 2 + 3 * 33 ∧ 2 + 3 * 33 ≤ 50 * (2 + 1)) := by decide

/-- The first press of a wait, a press outside one, and the indices 15 and 16. -/
theorem witness_SetKeyLatchesAndCaptures :
    (true = true ∧ waiting.awaitingKey = true ∧ waiting.pendingKey = none) ∧
    ¬ (true = true ∧ State.reset.awaitingKey = true ∧ State.reset.pendingKey = none) ∧ 15 < 16 ∧ 16 ≤ 16 := by decide

/-- 3584 bytes fill the program region, 3585 are too many. -/
theorem witness_LoadWritesProgram :
    (∃ bytes : List Byte, bytes.length = 3584 ∧ bytes.length ≤ 3584) ∧
    (∃ bytes : List Byte, bytes.length = 3585 ∧ 3584 < bytes.length) :=
  ⟨⟨List.replicate 3584 0, List.length_replicate, Nat.le_of_eq List.length_replicate⟩,
    ⟨List.replicate 3585 0, List.length_replicate, Nat.lt_of_lt_of_eq (by decide) List.length_replicate.symm⟩⟩

/-- FX55 and FX65 with X = F: the first and the last register. -/
theorem witness_StoreRegistersAtIndex : 0 ≤ (0xF#4).toNat ∧ 15 ≤ (0xF#4).toNat ∧ ¬ 16 ≤ (0xF#4).toNat := by decide

theorem witness_LoadRegistersAtIndex : 0 ≤ (0xF#4).toNat ∧ 15 ≤ (0xF#4).toNat ∧ ¬ 16 ≤ (0xF#4).toNat := by decide

/-- The last font byte and the first byte above it. -/
theorem witness_ConstructBuildsZeroedState : (0x04F#12).toNat < 80 ∧ 80 ≤ (0x050#12).toNat := by decide

/-- As for `construct()`. -/
theorem witness_ResetRestoresCore : (0x04F#12).toNat < 80 ∧ 80 ≤ (0x050#12).toNat := by decide

theorem reset_inv : State.reset.Inv where
  index_le := by decide
  pc_le := by decide
  stack_le := by decide
  pending_awaits := by decide
  awaiting_runs := by decide
  mem_wf := by decide

theorem reset_reachable : State.reset.Reachable := .construct defaultConfig 0

/-- From a state with the invariants a step answers a next state. -/
theorem witness_StepKeepsInv : ∃ s t : State, s.Inv ∧ step s = .next t := ⟨State.reset, _, reset_inv, rfl⟩

/-- A blocked machine has the invariants too, so that the clauses about the key wait are not empty. -/
theorem witness_HostOperationKeepsInv :
    ∃ (s t : State) (r : HostResult), s.Inv ∧ s.awaitingKey = true ∧ transact (.setKey 15 true) s = .next (r, t) :=
  ⟨waiting, _, _, ⟨by decide, by decide, by decide, by decide, by decide, by decide⟩, rfl, rfl⟩

theorem witness_ReachableStatesKeepInv : ∃ s : State, s.Reachable ∧ s.pc = 0x202 :=
  ⟨_, .transact .step State.reset (.stepped (.unknownOpcode 0x0000 0x200)) (State.reset.setPc 0x202) reset_reachable rfl,
    rfl⟩

/-- Steps that change DT and ST. -/
theorem witness_StepNeverTicks :
    (∃ s t : State, step s = .next t ∧ t.dt ≠ s.dt) ∧ (∃ s t : State, step s = .next t ∧ t.st ≠ s.st) :=
  ⟨⟨(start [(4, 60)]).withFetchWord 16 0xF415, _, rfl, by decide⟩,
    ⟨(start [(4, 5)]).withFetchWord 16 0xF418, _, rfl, by decide⟩⟩

/-- A step that changes a byte of memory. -/
theorem witness_OnlyStoresWriteMemory : ∃ s t : State, step s = .next t ∧ ¬ s.SameMemory t :=
  ⟨{ start [(0, 0xAA)] with index := 0x400 }.withFetchWord 16 0xF055, _, rfl,
    fun h => absurd (h 0x400) (by decide)⟩

/-- A step that changes the framebuffer, and one from a dirty state. -/
theorem witness_FramebufferOnlyByDisplay :
    (∃ s t : State, step s = .next t ∧ t.fb ≠ s.fb ∧ t.dirty ≠ s.dirty) ∧
    (∃ s t : State, step s = .next t ∧ s.dirty = true) :=
  ⟨⟨State.reset.withFetchWord 16 0xD015, _, rfl, by decide, by decide⟩,
    ⟨{ State.reset with dirty := true }, _, rfl, rfl⟩⟩

theorem witness_StepIgnoresHostOnlyState : ∃ s t : State, step s = .next t := ⟨State.reset, _, rfl⟩

theorem witness_HaltLeftOnlyByReset :
    ∃ (s t : State) (r : HostResult), s.status = .halted (.fetchOutOfBounds 0xFFF) ∧
      HostOp.load [0x00, 0xE0] ≠ .reset ∧ HostOp.load [0x00, 0xE0] ≠ .construct ∧
      transact (.load [0x00, 0xE0]) s = .next (r, t) :=
  ⟨{ State.reset with status := .halted (.fetchOutOfBounds 0xFFF) }, _, _, rfl, by decide, by decide, rfl⟩

/-- A step that draws, and a host operation that answers. -/
theorem witness_ParametersFixedAndDrawsCounted :
    (∃ s t : State, step s = .next t ∧ t.draws = s.draws + 1) ∧
    (∃ (s t : State) (r : HostResult), transact .construct s = .next (r, t)) :=
  ⟨⟨State.reset.withFetchWord 16 0xC0FF, _, rfl, rfl⟩, ⟨State.reset, _, _, rfl⟩⟩

end Sys2Proof.Tests
end

/-! ## Proofs of the family 10_state: registers, the key latch, the timers and the framebuffer

First the laws of the shared operations that the model's own laws leave out, then what an instruction does to the
registers, to the devices and under a change of the state that only the host reads, then the statements. -/
namespace Sys2Proof.Machine

section StateLaws
variable {s : State}

/-- Whatever VF_ORDER is, a flagged write changes no register but V[X] and VF. -/
theorem getV_writeFlagged_other {x r : Nibble} (hx : r ≠ x) (hF : r ≠ regF) (b : Byte) (c : Bool) :
    (s.writeFlagged x b c).getV r = s.getV r := by
  by_cases h : x = regF
  · subst h
    rw [writeFlagged_getV_regF, if_neg hF]
  · rw [writeFlagged_getV h, if_neg hx, if_neg hF]

@[simp] theorem getV_storeRegs (x r : Nibble) : (s.storeRegs x).getV r = s.getV r :=
  getV_congr (by rw [storeRegs_frame]) r

@[simp] theorem getV_storeDigits (b : Byte) (r : Nibble) : (s.storeDigits b).getV r = s.getV r :=
  getV_congr (by rw [storeDigits_frame]) r

@[simp] theorem keyBit_setKeyBit_same (k : Nibble) (p : Bool) : (s.setKeyBit k p).keyBit k = p := by
  simp [State.keyBit]

theorem keyBit_setKeyBit_other {k j : Nibble} (h : j.toNat ≠ k.toNat) (p : Bool) :
    (s.setKeyBit k p).keyBit j = s.keyBit j := by
  simp [State.keyBit, h.symm]

/-- The captured key after `setKey` (R236, D7): the first press of a wait, or what it was. -/
theorem reportKey_pendingKey (k : Nibble) (p : Bool) :
    (s.reportKey k p).pendingKey
      = if p = true ∧ s.awaitingKey = true ∧ s.pendingKey = none then some k else s.pendingKey := by
  simp [State.reportKey, and_assoc]

/-- What RET can do (R120): raise the underflow, or pop PC. -/
theorem execRet_cases {t : State} (h : execRet s = .next t) :
    (s.sp.val = 0 ∧ t = s.raise (.stackUnderflow s.pc)) ∨ ∃ hsp : s.sp.val ≠ 0, t = s.popPc hsp := by
  unfold execRet at h
  split at h <;> rename_i hsp
  · exact .inl ⟨hsp, (Host.Outcome.next.inj h).symm⟩
  · exact .inr ⟨hsp, (Host.Outcome.next.inj h).symm⟩

/-- What CALL can do (R122): push the return address and jump, or raise the overflow. -/
theorem execCall_cases {nnn : Addr} {t : State} (h : execCall nnn s = .next t) :
    (∃ hsp : s.sp.val < 16, t = (s.push (s.pc + 2#16) hsp).setPc (absolute nnn)) ∨
    (¬ s.sp.val < 16 ∧ t = s.raise (.stackOverflow s.pc)) := by
  unfold execCall at h
  split at h <;> rename_i hsp
  · exact .inl ⟨hsp, (Host.Outcome.next.inj h).symm⟩
  · exact .inr ⟨hsp, (Host.Outcome.next.inj h).symm⟩

end StateLaws

/-! ### The registers an instruction writes (R21, R38, R181) -/

/-- The arms are grouped as in `writesV`: by the shared operation that writes the registers. -/
theorem exec_getV_of_not_writesV {i : Instr} {s t : State} {r : Nibble} (h : exec i s = .next t)
    (hr : writesV i r = false) : t.getV r = s.getV r := by
  cases i with
  | ldImm x _ | addImm x _ | ldReg x _ | orReg x _ | andReg x _ | xorReg x _ | rnd x _ | ldVxDt x =>
    obtain rfl := Host.Outcome.next.inj h
    exact getV_setV_other _ (beq_eq_false_iff_ne.mp hr)
  | addReg x _ | sub x _ | shr x _ | subn x _ | shl x _ =>
    obtain rfl := Host.Outcome.next.inj h
    obtain ⟨hx, hF⟩ := Bool.or_eq_false_iff.mp hr
    exact getV_writeFlagged_other (beq_eq_false_iff_ne.mp hx) (beq_eq_false_iff_ne.mp hF) _ _
  | drw =>
    obtain rfl := Host.Outcome.next.inj h
    exact getV_setV_other _ (beq_eq_false_iff_ne.mp hr)
  | ldVxMem x =>
    obtain rfl := Host.Outcome.next.inj h
    exact (loadRegs_getV x r).trans (if_neg (of_decide_eq_false hr))
  | ldMemVx x =>
    obtain rfl := Host.Outcome.next.inj h
    exact getV_storeRegs x r
  | ldB x =>
    obtain rfl := Host.Outcome.next.inj h
    exact getV_storeDigits (s.getV x) r
  | ret => obtain ⟨-, rfl⟩ | ⟨-, rfl⟩ := execRet_cases h <;> rfl
  | call => obtain ⟨-, rfl⟩ | ⟨-, rfl⟩ := execCall_cases h <;> rfl
  | _ =>
    obtain rfl := Host.Outcome.next.inj h
    rfl

/-! ### The timers and the display (R27, R28, R29, R33, R34) -/

/-- The timers, the tick accumulator, the framebuffer and its dirty mark have the same values in `t` as in `s`. -/
structure State.SameDevices (s t : State) : Prop where
  dt : t.dt = s.dt
  st : t.st = s.st
  tAcc : t.tAcc = s.tAcc
  fb : t.fb = s.fb
  dirty : t.dirty = s.dirty

/-- What an instruction that takes `s` to `t` can do to the timers and the display: nothing, or the one write of
LD DT, LD ST, CLS or DRW. -/
inductive DeviceEffect (s t : State) : Instr → Prop where
  | unchanged (i : Instr) (same : s.SameDevices t) : DeviceEffect s t i
  | ldDt (x : Nibble) (same : State.SameDevices { s with dt := s.getV x } t) : DeviceEffect s t (.ldDtVx x)
  | ldSt (x : Nibble) (same : State.SameDevices { s with st := s.getV x } t) : DeviceEffect s t (.ldStVx x)
  | cls (same : (s.setFb clearedFb).SameDevices t) : DeviceEffect s t .cls
  | drw (x y n : Nibble) (fb : Framebuffer) (same : (s.setFb fb).SameDevices t) : DeviceEffect s t (.drw x y n)

section DeviceLaws
variable (s : State)

theorem sameDevices_refl : s.SameDevices s := ⟨rfl, rfl, rfl, rfl, rfl⟩

theorem sameDevices_setFlag (c : Bool) : s.SameDevices (s.setFlag c) := ⟨rfl, rfl, rfl, rfl, rfl⟩

theorem sameDevices_writeFlagged (x : Nibble) (b : Byte) (c : Bool) : s.SameDevices (s.writeFlagged x b c) :=
  ⟨writeFlagged_dt .., writeFlagged_st .., writeFlagged_tAcc .., writeFlagged_fb .., writeFlagged_dirty ..⟩

theorem sameDevices_storeDigits (b : Byte) : s.SameDevices (s.storeDigits b) := by
  rw [storeDigits_frame]
  exact ⟨rfl, rfl, rfl, rfl, rfl⟩

theorem sameDevices_storeRegs (x : Nibble) : s.SameDevices (s.storeRegs x) := by
  rw [storeRegs_frame]
  exact ⟨rfl, rfl, rfl, rfl, rfl⟩

theorem sameDevices_loadRegs (x : Nibble) : s.SameDevices (s.loadRegs x) := by
  rw [loadRegs_frame]
  exact ⟨rfl, rfl, rfl, rfl, rfl⟩

end DeviceLaws

/-- PC is no device. -/
theorem State.SameDevices.advance {s t : State} (h : s.SameDevices t) : s.SameDevices t.advance :=
  ⟨h.dt, h.st, h.tAcc, h.fb, h.dirty⟩

/-- The one place where the devices are followed through the 34 arms of `exec`. -/
theorem exec_deviceEffect {i : Instr} {s t : State} (h : exec i s = .next t) : DeviceEffect s t i := by
  cases i with
  | ldDtVx x =>
    obtain rfl := Host.Outcome.next.inj h
    exact .ldDt x (sameDevices_refl _).advance
  | ldStVx x =>
    obtain rfl := Host.Outcome.next.inj h
    exact .ldSt x (sameDevices_refl _).advance
  | cls =>
    obtain rfl := Host.Outcome.next.inj h
    exact .cls (sameDevices_refl _).advance
  | drw x y n =>
    obtain rfl := Host.Outcome.next.inj h
    exact .drw x y n _ (sameDevices_setFlag ..).advance
  | addReg | sub | shr | subn | shl =>
    obtain rfl := Host.Outcome.next.inj h
    exact .unchanged _ (sameDevices_writeFlagged ..).advance
  | ldB =>
    obtain rfl := Host.Outcome.next.inj h
    exact .unchanged _ (sameDevices_storeDigits ..).advance
  | ldMemVx =>
    obtain rfl := Host.Outcome.next.inj h
    exact .unchanged _ (sameDevices_storeRegs ..).advance
  | ldVxMem =>
    obtain rfl := Host.Outcome.next.inj h
    exact .unchanged _ (sameDevices_loadRegs ..).advance
  | ret => obtain ⟨-, rfl⟩ | ⟨-, rfl⟩ := execRet_cases h <;> exact .unchanged _ ⟨rfl, rfl, rfl, rfl, rfl⟩
  | call => obtain ⟨-, rfl⟩ | ⟨-, rfl⟩ := execCall_cases h <;> exact .unchanged _ ⟨rfl, rfl, rfl, rfl, rfl⟩
  | _ =>
    obtain rfl := Host.Outcome.next.inj h
    exact .unchanged _ ⟨rfl, rfl, rfl, rfl, rfl⟩

/-- A step that runs no instruction leaves the devices alone; one that runs the word at PC does to them what that
instruction does. -/
theorem step_deviceEffect {s t : State} (h : step s = .next t) :
    s.SameDevices t ∨ ∃ i, decode s.fetchWord = .ok i ∧ DeviceEffect s t i := by
  obtain ⟨-, rfl⟩ | ⟨-, rfl⟩ | ⟨-, -, k, -, rfl⟩ | ⟨-, -, -, rfl⟩ | ⟨-, -, rfl⟩ | ⟨-, i, hi, hexec⟩ := step_cases h
  case inr.inr.inr.inr.inr => exact .inr ⟨i, hi, exec_deviceEffect hexec⟩
  all_goals exact .inl ⟨rfl, rfl, rfl, rfl, rfl⟩

/-! ### The elements of state no step reads (R28, R29, R34, R38) -/

/-- `s` with other values of the elements of state that only the host reads: ST, tAcc and dirty. -/
def State.withHostOnly (s : State) (st : Byte) (tAcc : Nat) (dirty : Bool) : State :=
  { s with st := st, tAcc := tAcc, dirty := dirty }

section HostOnly
variable (s : State) (st : Byte) (tAcc : Nat) (dirty : Bool)

theorem writeFlagged_withHostOnly (x : Nibble) (b : Byte) (c : Bool) :
    (s.withHostOnly st tAcc dirty).writeFlagged x b c = (s.writeFlagged x b c).withHostOnly st tAcc dirty := by
  have hcfg : (s.withHostOnly st tAcc dirty).cfg = s.cfg := rfl
  unfold State.writeFlagged
  rw [hcfg]
  cases s.cfg.vfOrder <;> rfl

/-- Each store of the run commutes with the change, so the run does. -/
theorem storeRegs_withHostOnly (x : Nibble) :
    (s.withHostOnly st tAcc dirty).storeRegs x = (s.storeRegs x).withHostOnly st tAcc dirty :=
  List.foldl_hom (State.withHostOnly · st tAcc dirty) fun _ _ => rfl

/-- Each load of the run commutes with the change, so the run does. -/
theorem loadRegs_withHostOnly (x : Nibble) :
    (s.withHostOnly st tAcc dirty).loadRegs x = (s.loadRegs x).withHostOnly st tAcc dirty :=
  List.foldl_hom (State.withHostOnly · st tAcc dirty) fun _ _ => rfl

theorem nextAction_withHostOnly : (s.withHostOnly st tAcc dirty).nextAction = s.nextAction := rfl

end HostOnly

section Noninterference
variable {s t : State}

/-- What commutes with the change still does with PC advanced, as most meanings end. -/
theorem next_advance_withHostOnly {u : State} {st : Byte} {tAcc : Nat} {dirty : Bool}
    (h : u = s.withHostOnly st tAcc dirty) :
    (Host.Outcome.next u.advance : Host.Outcome State Fault Refusal) =
      .next (s.advance.withHostOnly st tAcc dirty) := by
  rw [h]
  rfl

/-- LD ST, CLS and DRW write host-only elements; every other arm carries them through. -/
theorem exec_withHostOnly {i : Instr} (st : Byte) (tAcc : Nat) (dirty : Bool) (h : exec i s = .next t) :
    ∃ st' tAcc' dirty', exec i (s.withHostOnly st tAcc dirty) = .next (t.withHostOnly st' tAcc' dirty') := by
  cases i with
  | ldStVx x =>
    obtain rfl := Host.Outcome.next.inj h
    exact ⟨s.getV x, tAcc, dirty, rfl⟩
  | cls | drw =>
    obtain rfl := Host.Outcome.next.inj h
    exact ⟨st, tAcc, true, rfl⟩
  | addReg | sub | shr | subn | shl =>
    obtain rfl := Host.Outcome.next.inj h
    exact ⟨st, tAcc, dirty, next_advance_withHostOnly (writeFlagged_withHostOnly ..)⟩
  | ldMemVx =>
    obtain rfl := Host.Outcome.next.inj h
    exact ⟨st, tAcc, dirty, next_advance_withHostOnly (storeRegs_withHostOnly ..)⟩
  | ldVxMem =>
    obtain rfl := Host.Outcome.next.inj h
    exact ⟨st, tAcc, dirty, next_advance_withHostOnly (loadRegs_withHostOnly ..)⟩
  | ret =>
    obtain ⟨hsp, rfl⟩ | ⟨hsp, rfl⟩ := execRet_cases h
    · exact ⟨st, tAcc, dirty, dif_pos hsp⟩
    · exact ⟨st, tAcc, dirty, dif_neg hsp⟩
  | call =>
    obtain ⟨hsp, rfl⟩ | ⟨hsp, rfl⟩ := execCall_cases h
    · exact ⟨st, tAcc, dirty, dif_pos hsp⟩
    · exact ⟨st, tAcc, dirty, dif_neg hsp⟩
  | _ =>
    obtain rfl := Host.Outcome.next.inj h
    exact ⟨st, tAcc, dirty, rfl⟩

/-- The choice of the action reads no host-only element, and no action does. -/
theorem step_withHostOnly (st : Byte) (tAcc : Nat) (dirty : Bool) (h : step s = .next t) :
    ∃ st' tAcc' dirty', step (s.withHostOnly st tAcc dirty) = .next (t.withHostOnly st' tAcc' dirty') := by
  unfold step at h ⊢
  rw [nextAction_withHostOnly]
  cases hact : s.nextAction with
  | run i =>
    rw [hact] at h
    exact exec_withHostOnly st tAcc dirty h
  | _ =>
    rw [hact] at h
    obtain rfl := Host.Outcome.next.inj h
    exact ⟨st, tAcc, dirty, rfl⟩

end Noninterference

/-! ### The statements -/

/-- Settles O35, by the arms of `exec`, grouped by the shared operation that writes the registers. -/
theorem onlyNamedRegistersWritten : Obligations.OnlyNamedRegistersWritten :=
  fun _ _ _ _ h hr => exec_getV_of_not_writesV h hr

/-- Settles O44, from the laws of the latch bit and of the captured key. -/
theorem setKeyLatchesAndCaptures : Obligations.SetKeyLatchesAndCaptures := by
  intro s k pressed
  refine ⟨fun hk => ?_, fun hk => if_neg (Nat.not_lt.mpr hk)⟩
  have hnat : (BitVec.ofNat 4 k).toNat = k := by
    rw [BitVec.toNat_ofNat]
    exact Nat.mod_eq_of_lt hk
  refine ⟨s.reportKey (BitVec.ofNat 4 k) pressed, if_pos hk, keyBit_setKeyBit_same _ _, fun j hj => ?_,
    fun h => ?_, fun h => ?_, rfl⟩
  · exact keyBit_setKeyBit_other (by rwa [hnat]) pressed
  · rw [reportKey_pendingKey, if_pos h]
  · rw [reportKey_pendingKey, if_neg h]

/-- Settles O53, from what a step can do to the devices. -/
theorem stepNeverTicks : Obligations.StepNeverTicks := by
  intro s t h
  obtain same | ⟨i, hi, effect⟩ := step_deviceEffect h
  · exact ⟨same.tAcc, fun hd => absurd same.dt hd, fun hs => absurd same.st hs⟩
  · cases effect with
    | ldDt x same => exact ⟨same.tAcc, fun _ => ⟨x, hi⟩, fun hs => absurd same.st hs⟩
    | ldSt x same => exact ⟨same.tAcc, fun hd => absurd same.dt hd, fun _ => ⟨x, hi⟩⟩
    | unchanged _ same | cls same | drw _ _ _ _ same =>
      exact ⟨same.tAcc, fun hd => absurd same.dt hd, fun hs => absurd same.st hs⟩

/-- Settles O55, from what a step can do to the devices. -/
theorem framebufferOnlyByDisplay : Obligations.FramebufferOnlyByDisplay := by
  intro s t h
  obtain same | ⟨i, hi, effect⟩ := step_deviceEffect h
  · exact ⟨same.dirty.trans, fun hne => absurd same.dirty (hne.resolve_left (absurd same.fb))⟩
  · cases effect with
    | cls same => exact ⟨fun _ => same.dirty, fun _ => ⟨same.dirty, .inl hi⟩⟩
    | drw x y n _ same => exact ⟨fun _ => same.dirty, fun _ => ⟨same.dirty, .inr ⟨x, y, n, hi⟩⟩⟩
    | unchanged _ same | ldDt _ same | ldSt _ same =>
      exact ⟨same.dirty.trans, fun hne => absurd same.dirty (hne.resolve_left (absurd same.fb))⟩

/-- Settles O56: a step commutes with a change of the host-only elements. -/
theorem stepIgnoresHostOnlyState : Obligations.StepIgnoresHostOnlyState := by
  intro s t st tAcc dirty h
  obtain ⟨_, _, _, hstep⟩ := step_withHostOnly st tAcc dirty h
  exact ⟨_, hstep, rfl⟩

end Sys2Proof.Machine

/-! ## Proofs of the family 20_memory: addresses, fetch, stores, `load` and the sprite read from memory

First the laws that say the model's addresses, its fetched word, its loaded bytes and its collision report in the
spec's own arithmetic, then which instructions write memory, then the statements. -/
namespace Sys2Proof.Machine

/-! ### Addresses and the fetched word (R55, R58, R73) -/

section AddressLaws
variable (s : State)

/-- The effective address of a data access, as a natural modulo 4096 (R55). -/
theorem dataAddr_eq_ofNat (k : Nat) : s.dataAddr k = BitVec.ofNat 12 (s.index.toNat + k) := by
  apply BitVec.eq_of_toNat_eq
  simp only [State.dataAddr, mask12, BitVec.toNat_setWidth, BitVec.toNat_add, BitVec.toNat_ofNat]
  omega

theorem spriteRow_eq_byteAtIndex : s.spriteRow = s.byteAtIndex :=
  funext fun r => congrArg s.readByte (dataAddr_eq_ofNat s r)

/-- Big-endian (R58): the first byte is the high one. -/
theorem opcodeOf_toNat (first second : Byte) :
    (opcodeOf first second).toNat = first.toNat * 256 + second.toNat := by
  rw [opcodeOf, BitVec.toNat_append, ← Nat.shiftLeft_add_eq_or_of_lt second.isLt, Nat.shiftLeft_eq]

/-- The fetched word, from the bytes at PC and PC + 1 modulo 4096. -/
theorem fetchWord_toNat :
    s.fetchWord.toNat = (s.readByte (BitVec.ofNat 12 s.pc.toNat)).toNat * 256
      + (s.readByte (BitVec.ofNat 12 (s.pc.toNat + 1))).toNat := by
  rw [State.fetchWord, opcodeOf_toNat, BitVec.ofNat_add, BitVec.ofNat_toNat]

end AddressLaws

section MemoryLaws
variable {s t : State}

/-- A step of a ready state runs the instruction its word decodes to, and nothing else (R80, R81). -/
theorem step_of_ready {i : Instr} (h : s.Ready) (hi : decode s.fetchWord = .ok i) : step s = exec i s := by
  rw [step, nextAction_of_ready h, hi]

/-- V[k] is found at I + k modulo 4096 after LD [I], Vx (R204). -/
theorem execLdMemVx_stored {x : Nibble} {k : Nat} (h : exec (.ldMemVx x) s = .next t) (hk : k ≤ x.toNat) :
    t.readByte (BitVec.ofNat 12 (s.index.toNat + k)) = s.getV (BitVec.ofNat 4 k) := by
  obtain rfl := Host.Outcome.next.inj h
  rw [← dataAddr_eq_ofNat]
  exact storeRegs_stored x hk

/-! ### The bytes `load` writes (R302) -/

/-- The j-th address after the next one is the next j-th. -/
theorem addr_add_succ (a : Addr) (j : Nat) : a + BitVec.ofNat 12 (j + 1) = a + 1#12 + BitVec.ofNat 12 j := by
  rw [BitVec.add_assoc, BitVec.add_comm 1#12, BitVec.ofNat_add]

/-- A byte at none of the addresses written keeps its value. -/
theorem readByte_writeBytes_other (bytes : List Byte) {a c : Addr}
    (h : ∀ j, j < bytes.length → c ≠ a + BitVec.ofNat 12 j) : (s.writeBytes a bytes).readByte c = s.readByte c := by
  induction bytes generalizing s a with
  | nil => rfl
  | cons b rest ih =>
    have hrest : ∀ j, j < rest.length → c ≠ a + 1#12 + BitVec.ofNat 12 j := fun j hj => by
      rw [← addr_add_succ a j]
      exact h (j + 1) (Nat.succ_lt_succ hj)
    have hhead : c ≠ a := by simpa using h 0 (Nat.succ_pos _)
    rw [State.writeBytes, ih hrest, readByte_writeByte_other b hhead]

/-- Byte j is at the j-th address written: no byte after it wraps around onto it. -/
theorem readByte_writeBytes_getElem (bytes : List Byte) (a : Addr) (hlen : bytes.length ≤ memSize)
    {j : Nat} (hj : j < bytes.length) : (s.writeBytes a bytes).readByte (a + BitVec.ofNat 12 j) = bytes[j] := by
  induction bytes generalizing s a j with
  | nil => exact absurd hj (Nat.not_lt_zero j)
  | cons b rest ih =>
    replace hlen : rest.length + 1 ≤ 4096 := hlen
    rw [State.writeBytes]
    cases j with
    | zero =>
      have hfresh : ∀ k, k < rest.length → a + 0#12 ≠ a + 1#12 + BitVec.ofNat 12 k := fun k hk => by
        bv_omega
      rw [readByte_writeBytes_other rest hfresh, BitVec.add_zero, readByte_writeByte_same, List.getElem_cons_zero]
    | succ j =>
      rw [addr_add_succ a j]
      exact ih (a + 1#12) (Nat.le_of_succ_le hlen) (Nat.lt_of_succ_lt_succ hj)

/-! ### The sprite read from memory and its collision report (R55, R103) -/

/-- The report of a whole sprite: some pixel of the screen that it covers was set. -/
theorem drawSprite_collided_iff (rows : Nat → Byte) (x y : Nat) (fb : Framebuffer) {n : Nat} (hn : n ≤ 32) :
    (drawSprite rows n x y fb).2 = true ↔
      ∃ px py, px < 64 ∧ py < 32 ∧ SpriteCovers rows n x y px py ∧ pixel fb px py = true := by
  obtain ⟨-, -, hreport⟩ := drawSprite_spec rows x y fb n hn
  rw [hreport]
  constructor
  · rintro ⟨r, hr, c, hc, hbit, hset⟩
    refine ⟨(x + c) % 64, (y + r) % 32, Nat.mod_lt _ (by decide), Nat.mod_lt _ (by decide), ?_, ?_⟩
    · exact ⟨r, hr, c, hc, hbit, Nat.mod_mod .., Nat.mod_mod ..⟩
    · rwa [pixel_mod]
  · rintro ⟨px, py, -, -, ⟨r, hr, c, hc, hbit, hx, hy⟩, hset⟩
    refine ⟨r, hr, c, hc, hbit, ?_⟩
    rwa [← pixel_mod, ← hx, ← hy, pixel_mod]

/-- DRW draws the sprite whose rows are the bytes of memory at I + r modulo 4096 (R55, R103). -/
theorem exec_drw (s : State) (x y n : Nibble) :
    exec (.drw x y n) s =
      .next ((s.setFb (drawSprite s.byteAtIndex n.toNat (s.getV x).toNat (s.getV y).toNat s.fb).1).setFlag
        (drawSprite s.byteAtIndex n.toNat (s.getV x).toNat (s.getV y).toNat s.fb).2).advance := by
  rw [exec, execDrw, spriteRow_eq_byteAtIndex]

/-! ### The instructions that write memory (R50, R57) -/

/-- Every arm of `exec` but the two stores carries memory and FONT through. -/
theorem exec_sameMemory_or_store {i : Instr} (h : exec i s = .next t) :
    s.SameMemory t ∨ ∃ x, i = .ldB x ∨ i = .ldMemVx x := by
  cases i with
  | ldB x => exact .inr ⟨x, .inl rfl⟩
  | ldMemVx x => exact .inr ⟨x, .inr rfl⟩
  | addReg | sub | shr | subn | shl =>
    obtain rfl := Host.Outcome.next.inj h
    exact .inl fun a => readByte_writeFlagged _ _ _ a
  | ldVxMem x =>
    obtain rfl := Host.Outcome.next.inj h
    exact .inl fun a => by rw [readByte_advance, loadRegs_frame]; rfl
  | ret => obtain ⟨-, rfl⟩ | ⟨-, rfl⟩ := execRet_cases h <;> exact .inl fun _ => rfl
  | call => obtain ⟨-, rfl⟩ | ⟨-, rfl⟩ := execCall_cases h <;> exact .inl fun _ => rfl
  | _ =>
    obtain rfl := Host.Outcome.next.inj h
    exact .inl fun _ => rfl

end MemoryLaws

/-! ### The statements -/

/-- Settles O16, from the laws of a whole sprite and of its collision report. -/
theorem drwTogglesCoveredPixels : Obligations.DrwTogglesCoveredPixels := by
  intro s x y n
  have hn : n.toNat ≤ 32 := n.isLt.le.trans (by decide)
  obtain ⟨htoggled, hkept, -⟩ := drawSprite_spec s.byteAtIndex (s.getV x).toNat (s.getV y).toNat s.fb n.toNat hn
  have hcollided := drawSprite_collided_iff s.byteAtIndex (s.getV x).toNat (s.getV y).toNat s.fb hn
  refine ⟨_, exec_drw s x y n, fun px py _ _ => htoggled px py, fun px py _ _ => hkept px py,
    fun h => ?_, fun h => ?_, fun r hr => getV_setV_other _ hr, rfl, fun _ => rfl⟩
  · rw [getV_advance, State.setFlag, getV_setV_same, hcollided.mpr h]
    rfl
  · rw [getV_advance, State.setFlag, getV_setV_same, Bool.eq_false_iff.mpr (mt hcollided.mp h)]
    rfl

/-- Settles O40: both bytes of the fetched word were stored by the instruction. -/
theorem storedCodeIsFetched : Obligations.StoredCodeIsFetched := by
  intro s t u x k h hk hu hpc _
  have hread (a : Addr) : u.readByte a = t.readByte a := by rw [hu]; rfl
  rw [fetchWord_toNat, hpc, Nat.add_assoc, hread, hread, execLdMemVx_stored h (Nat.le_of_succ_le hk),
    execLdMemVx_stored h hk]

/-- Settles O46, from the laws of `writeBytes`: at most 3584 bytes from 0x200 do not wrap. -/
theorem loadWritesProgram : Obligations.LoadWritesProgram := by
  intro s bytes
  refine ⟨fun hlen => ?_, fun hlen => congrArg Host.Outcome.next (if_pos hlen)⟩
  refine ⟨s.writeBytes 0x200#12 bytes, congrArg Host.Outcome.next (if_neg (Nat.not_lt.mpr hlen)), fun j hj => ?_,
    fun a ha => ?_, writeBytes_frame bytes s _⟩
  · rw [BitVec.ofNat_add]
    exact readByte_writeBytes_getElem bytes _ (hlen.trans (by decide)) hj
  · refine readByte_writeBytes_other bytes fun j hj => ?_
    bv_omega

/-- Settles O54, from what a step can do and which instructions write memory. -/
theorem onlyStoresWriteMemory : Obligations.OnlyStoresWriteMemory := by
  intro s t h hne
  obtain ⟨-, rfl⟩ | ⟨-, rfl⟩ | ⟨-, -, k, -, rfl⟩ | ⟨-, -, -, rfl⟩ | ⟨-, -, rfl⟩ | ⟨-, i, hi, hexec⟩ := step_cases h
  case inr.inr.inr.inr.inr =>
    obtain ⟨x, rfl | rfl⟩ := (exec_sameMemory_or_store hexec).resolve_left hne
    · exact ⟨x, .inl hi⟩
    · exact ⟨x, .inr hi⟩
  all_goals exact absurd (fun _ => rfl) hne

/-- Settles O5: each of the eight fixed words evaluates. -/
theorem sampleWordsDecode : Obligations.SampleWordsDecode :=
  ⟨rfl, rfl, rfl, rfl, rfl, rfl, rfl, rfl⟩

/-- Settles O6: the word read in the spec's arithmetic is the word fetched. -/
theorem stepRunsDecoded : Obligations.StepRunsDecoded := by
  intro s i hready hi
  rw [← fetchWord_toNat, BitVec.ofNat_toNat, BitVec.setWidth_eq] at hi
  exact step_of_ready hready hi

end Sys2Proof.Machine

/-! ## Proofs of the family 30_encoding: decoder, encoder and opcode map, and the step around `exec`

First the decoder against the encoder, then the words it rejects, then the rows of the opcode map, each with its
statements; the results of a step follow in the machine's own namespace. -/
namespace Sys2Proof

/-! ### Decoding what was encoded (R71, R72, R75) -/

/-- Settles O1: the decoder reads back the fields that the format of the instruction lays out, and finds the
discriminators the format fixes. -/
theorem decodeAfterEncode : Obligations.DecodeAfterEncode := by
  intro i
  cases i with
  | cls | ret => rfl
  | jp | call | ldI | jpV0 => rw [encode, decode, family_formatNNN, nnn_formatNNN]; rfl
  | seImm | sneImm | ldImm | addImm | rnd =>
    rw [encode, decode, family_formatXNN, x_formatXNN, nn_formatXNN]; rfl
  | drw => rw [encode, decode, family_formatXYN, x_formatXYN, y_formatXYN, n_formatXYN]; rfl
  | seReg => rw [encode, decode, family_formatXYN, decodeFamily5, x_formatXYN, y_formatXYN, n_formatXYN]; rfl
  | sneReg => rw [encode, decode, family_formatXYN, decodeFamily9, x_formatXYN, y_formatXYN, n_formatXYN]; rfl
  | ldReg | orReg | andReg | xorReg | addReg | sub | shr | subn | shl =>
    rw [encode, decode, family_formatXYN, decodeFamily8, x_formatXYN, y_formatXYN, n_formatXYN]; rfl
  | skp | sknp => rw [encode, decode, family_formatXNN, decodeFamilyE, x_formatXNN, nn_formatXNN]; rfl
  | ldVxDt | ldVxK | ldDtVx | ldStVx | addI | ldF | ldB | ldMemVx | ldVxMem =>
    rw [encode, decode, family_formatXNN, decodeFamilyF, x_formatXNN, nn_formatXNN]; rfl

/-! ### Encoding what was decoded (R71, R74) -/

section Formats
variable {w : Word} {f n : Nibble} {nn : Byte}

/-- Format NNN: the family and the fields read from a word make the word. -/
theorem formatNNN_of_family (hf : (fieldFamily w).toNat = f.toNat) : f ++ fieldNNN w = w := by
  apply BitVec.eq_of_toNat_eq
  rw [toNat_formatNNN, ← hf, fieldFamily_toNat, fieldNNN_toNat]
  omega

/-- Format XNN. -/
theorem formatXNN_of_family (hf : (fieldFamily w).toNat = f.toNat) : f ++ fieldX w ++ fieldNN w = w := by
  apply BitVec.eq_of_toNat_eq
  rw [toNat_formatXNN, ← hf, fieldFamily_toNat, fieldX_toNat, fieldNN_toNat]
  omega

/-- Format XYN. -/
theorem formatXYN_of_family (hf : (fieldFamily w).toNat = f.toNat) :
    f ++ fieldX w ++ fieldY w ++ fieldN w = w := by
  apply BitVec.eq_of_toNat_eq
  rw [toNat_formatXYN, ← hf, fieldFamily_toNat, fieldX_toNat, fieldY_toNat, fieldN_toNat]
  omega

/-- Format Xnn: the low byte is fixed by the instruction. -/
theorem formatXNN_of_family_nn (hf : (fieldFamily w).toNat = f.toNat) (hn : fieldNN w = nn) :
    f ++ fieldX w ++ nn = w := by
  rw [← hn, formatXNN_of_family hf]

/-- Format XYn: the low nibble is fixed by the instruction. -/
theorem formatXYN_of_family_n (hf : (fieldFamily w).toNat = f.toNat) (hn : (fieldN w).toNat = n.toNat) :
    f ++ fieldX w ++ fieldY w ++ n = w := by
  rw [← BitVec.eq_of_toNat_eq hn, formatXYN_of_family hf]

end Formats

section EncodeAfterDecode
variable {w : Word} {i : Instr}

theorem encode_of_decodeFamily0 (h : decodeFamily0 w = .ok i) : encode i = w := by
  unfold decodeFamily0 at h
  split_ifs at h with hw hw
  all_goals
    obtain rfl := Except.ok.inj h
    exact hw.symm

theorem encode_of_decodeFamily5 (hf : (fieldFamily w).toNat = 0x5) (h : decodeFamily5 w = .ok i) :
    encode i = w := by
  unfold decodeFamily5 at h
  split_ifs at h with hn
  obtain rfl := Except.ok.inj h
  exact formatXYN_of_family_n hf (congrArg BitVec.toNat hn)

theorem encode_of_decodeFamily8 (hf : (fieldFamily w).toNat = 0x8) (h : decodeFamily8 w = .ok i) :
    encode i = w := by
  unfold decodeFamily8 at h
  split at h
  case h_10 => cases h
  all_goals
    next hn =>
    obtain rfl := Except.ok.inj h
    exact formatXYN_of_family_n hf hn

theorem encode_of_decodeFamily9 (hf : (fieldFamily w).toNat = 0x9) (h : decodeFamily9 w = .ok i) :
    encode i = w := by
  unfold decodeFamily9 at h
  split_ifs at h with hn
  obtain rfl := Except.ok.inj h
  exact formatXYN_of_family_n hf (congrArg BitVec.toNat hn)

theorem encode_of_decodeFamilyE (hf : (fieldFamily w).toNat = 0xE) (h : decodeFamilyE w = .ok i) :
    encode i = w := by
  unfold decodeFamilyE at h
  split_ifs at h with hn hn
  all_goals
    obtain rfl := Except.ok.inj h
    exact formatXNN_of_family_nn hf hn

theorem encode_of_decodeFamilyF (hf : (fieldFamily w).toNat = 0xF) (h : decodeFamilyF w = .ok i) :
    encode i = w := by
  unfold decodeFamilyF at h
  split_ifs at h with hn hn hn hn hn hn hn hn hn
  all_goals
    obtain rfl := Except.ok.inj h
    exact formatXNN_of_family_nn hf hn

end EncodeAfterDecode

/-- Settles O2, by the families of the decoder: a family's words have the format of the instruction read. -/
theorem encodeAfterDecode : Obligations.EncodeAfterDecode := by
  intro w i h
  unfold decode at h
  split at h
  case h_1 => exact encode_of_decodeFamily0 h
  case h_6 hf => exact encode_of_decodeFamily5 hf h
  case h_9 hf => exact encode_of_decodeFamily8 hf h
  case h_10 hf => exact encode_of_decodeFamily9 hf h
  case h_15 hf => exact encode_of_decodeFamilyE hf h
  case h_16 =>
    have hF : (fieldFamily w).toNat = 0xF := by
      have := (fieldFamily w).isLt
      simp only [imp_false] at *
      omega
    exact encode_of_decodeFamilyF hF h
  all_goals obtain rfl := Except.ok.inj h
  case h_2 hf | h_3 hf | h_11 hf | h_12 hf => exact formatNNN_of_family hf
  case h_4 hf | h_5 hf | h_7 hf | h_8 hf | h_13 hf => exact formatXNN_of_family hf
  case h_14 hf => exact formatXYN_of_family hf

/-! ### The rejected words (R74, R76) -/

section Rejected
variable {w : Word}

theorem fieldN_eq_iff (n : Nibble) : fieldN w = n ↔ w.toNat % 16 = n.toNat := by
  rw [← BitVec.toNat_inj, fieldN_toNat]

theorem fieldNN_eq_iff (nn : Byte) : fieldNN w = nn ↔ w.toNat % 256 = nn.toNat := by
  rw [← BitVec.toNat_inj, fieldNN_toNat]

theorem decodeFamily0_eq_error_iff :
    decodeFamily0 w = .error (.unrecognized w) ↔ w.toNat ≠ 0x00E0 ∧ w.toNat ≠ 0x00EE := by
  simp [decodeFamily0, ite_eq_iff, ← BitVec.toNat_inj]

theorem decodeFamily5_eq_error_iff : decodeFamily5 w = .error (.unrecognized w) ↔ w.toNat % 16 ≠ 0 := by
  simp [decodeFamily5, fieldN_eq_iff]

theorem decodeFamily8_eq_error_iff :
    decodeFamily8 w = .error (.unrecognized w) ↔ 8 ≤ w.toNat % 16 ∧ w.toNat % 16 ≠ 0xE := by
  rw [← fieldN_toNat]
  unfold decodeFamily8
  split
  case h_10 =>
    simp only [imp_false, true_iff] at *
    omega
  all_goals next hn => simp [hn]

theorem decodeFamily9_eq_error_iff : decodeFamily9 w = .error (.unrecognized w) ↔ w.toNat % 16 ≠ 0 := by
  simp [decodeFamily9, fieldN_eq_iff]

theorem decodeFamilyE_eq_error_iff :
    decodeFamilyE w = .error (.unrecognized w) ↔ w.toNat % 256 ≠ 0x9E ∧ w.toNat % 256 ≠ 0xA1 := by
  simp [decodeFamilyE, ite_eq_iff, fieldNN_eq_iff]

theorem decodeFamilyF_eq_error_iff :
    decodeFamilyF w = .error (.unrecognized w) ↔
      w.toNat % 256 ∉ [0x07, 0x0A, 0x15, 0x18, 0x1E, 0x29, 0x33, 0x55, 0x65] := by
  simp [decodeFamilyF, ite_eq_iff, fieldNN_eq_iff]

end Rejected

/-- Settles O3, by the families of the decoder: the six that check more than the family nibble reject by that
check, every other family reads all its words. -/
theorem rejectedWordsExactly : Obligations.RejectedWordsExactly := by
  intro w
  rw [← fieldFamily_toNat]
  unfold decode
  split
  case h_1 hf => simp [hf, decodeFamily0_eq_error_iff]
  case h_6 hf => simp [hf, decodeFamily5_eq_error_iff]
  case h_9 hf => simp [hf, decodeFamily8_eq_error_iff]
  case h_10 hf => simp [hf, decodeFamily9_eq_error_iff]
  case h_15 hf => simp [hf, decodeFamilyE_eq_error_iff]
  case h_16 =>
    have hF : (fieldFamily w).toNat = 0xF := by
      have := (fieldFamily w).isLt
      simp only [imp_false] at *
      omega
    simp [hF, decodeFamilyF_eq_error_iff]
  all_goals next hf => simp [hf]

/-! ### The rows of the opcode map (R75) -/

section OpcodeMap
variable {w v : Word} {r q : OpcodeRow}

theorem matches_iff : r.matches w = true ↔ w &&& r.mask = r.value := beq_iff_eq

/-- A word would need two values of a bit that both rows fix. -/
theorem not_both_match_of_disjoint (h : r.disjoint q = true) (hr : r.matches w = true) : q.matches w ≠ true := by
  intro hq
  rw [OpcodeRow.disjoint, bne_iff_ne, ← matches_iff.mp hr, ← matches_iff.mp hq] at h
  refine h (BitVec.eq_of_getElem_eq fun j hj => ?_)
  cases hw : w[j] <;> cases hm : r.mask[j] <;> simp [hw, hm]

theorem opcodeTable_disjoint : ∀ r ∈ opcodeTable, ∀ q ∈ opcodeTable, r = q ∨ r.disjoint q = true := by decide

/-- Every row fixes the family, and whatever else its family is discriminated by (R74). -/
theorem opcodeTable_mask : ∀ r ∈ opcodeTable,
    fieldFamily r.mask = BitVec.allOnes 4 ∧
    ((fieldFamily r.value).toNat = 0x0 → r.mask = BitVec.allOnes 16) ∧
    ((fieldFamily r.value).toNat ∈ [0x5, 0x8, 0x9] → fieldN r.mask = BitVec.allOnes 4) ∧
    ((fieldFamily r.value).toNat ∈ [0xE, 0xF] → fieldNN r.mask = BitVec.allOnes 8) := by decide

theorem opcodeTable_value_decodes : ∀ r ∈ opcodeTable, (decode r.value).isOk = true := by decide

/-- A word agrees with the value of a row it matches in every field the row fixes whole. -/
theorem field_eq_of_matches (start len : Nat) (h : r.matches w = true)
    (hm : r.mask.extractLsb' start len = BitVec.allOnes len) :
    w.extractLsb' start len = r.value.extractLsb' start len := by
  rw [← matches_iff.mp h, BitVec.extractLsb'_and, hm, BitVec.and_allOnes]

/-- Words that agree in the family and in what it is discriminated by are rejected together (R74, R76). -/
theorem decode_error_congr (hfam : fieldFamily w = fieldFamily v) (h0 : (fieldFamily v).toNat = 0x0 → w = v)
    (hN : (fieldFamily v).toNat ∈ [0x5, 0x8, 0x9] → fieldN w = fieldN v)
    (hNN : (fieldFamily v).toNat ∈ [0xE, 0xF] → fieldNN w = fieldNN v) :
    decode w = .error (.unrecognized w) ↔ decode v = .error (.unrecognized v) := by
  simp only [rejectedWordsExactly _, ← fieldFamily_toNat, ← fieldN_toNat, ← fieldNN_toNat, hfam]
  refine or_congr (and_congr_right fun hf => ?_) <| or_congr (and_congr_right fun hf => ?_) <|
    or_congr (and_congr_right fun hf => ?_) <| or_congr (and_congr_right fun hf => ?_) <|
    or_congr (and_congr_right fun hf => ?_) (and_congr_right fun hf => ?_)
  · rw [h0 hf]
  iterate 3 rw [hN (by simp [hf])]
  iterate 2 rw [hNN (by simp [hf])]

/-- A matched word is rejected only if the row's value is, and that one decodes. -/
theorem decode_ok_of_matches (hr : r ∈ opcodeTable) (h : r.matches w = true) : ∃ i, decode w = .ok i := by
  obtain ⟨hfam, h0, hN, hNN⟩ := opcodeTable_mask r hr
  have hcongr : decode w = .error (.unrecognized w) ↔ decode r.value = .error (.unrecognized r.value) :=
    decode_error_congr (field_eq_of_matches _ _ h hfam)
      (fun hf => by rw [← matches_iff.mp h, h0 hf, BitVec.and_allOnes])
      (fun hf => field_eq_of_matches _ _ h (hN hf)) (fun hf => field_eq_of_matches _ _ h (hNN hf))
  cases hd : decode w with
  | ok i => exact ⟨i, rfl⟩
  | error e =>
    have hok := opcodeTable_value_decodes r hr
    obtain rfl := Machine.decode_error hd
    rw [hcongr.mp hd] at hok
    cases hok

open Laws.Recognized in
/-- The per-instruction laws, in one. -/
theorem recognized_encode (i : Instr) : recognized (encode i) = true :=
  match i with
  | .cls => cls.1
  | .ret => ret.1
  | .jp _ => (jp _).1
  | .call _ => (call _).1
  | .seImm _ _ => (seImm _ _).1
  | .sneImm _ _ => (sneImm _ _).1
  | .seReg _ _ => (seReg _ _).1
  | .ldImm _ _ => (ldImm _ _).1
  | .addImm _ _ => (addImm _ _).1
  | .ldReg _ _ => (ldReg _ _).1
  | .orReg _ _ => (orReg _ _).1
  | .andReg _ _ => (andReg _ _).1
  | .xorReg _ _ => (xorReg _ _).1
  | .addReg _ _ => (addReg _ _).1
  | .sub _ _ => (sub _ _).1
  | .shr _ _ => (shr _ _).1
  | .subn _ _ => (subn _ _).1
  | .shl _ _ => (shl _ _).1
  | .sneReg _ _ => (sneReg _ _).1
  | .ldI _ => (ldI _).1
  | .jpV0 _ => (jpV0 _).1
  | .rnd _ _ => (rnd _ _).1
  | .drw _ _ _ => (drw _ _ _).1
  | .skp _ => (skp _).1
  | .sknp _ => (sknp _).1
  | .ldVxDt _ => (ldVxDt _).1
  | .ldVxK _ => (ldVxK _).1
  | .ldDtVx _ => (ldDtVx _).1
  | .ldStVx _ => (ldStVx _).1
  | .addI _ => (addI _).1
  | .ldF _ => (ldF _).1
  | .ldB _ => (ldB _).1
  | .ldMemVx _ => (ldMemVx _).1
  | .ldVxMem _ => (ldVxMem _).1

end OpcodeMap

/-- Settles O4: rows of the table that differ are disjoint, a matched word decodes, and a decoded word is the
encoding of an instruction, which some row matches. -/
theorem mapRowsDisjointAndDecoded : Obligations.MapRowsDisjointAndDecoded := by
  refine ⟨fun w r q hr hq hrw hqw => ?_, fun w => ⟨fun h => ?_, fun ⟨i, hi⟩ => ?_⟩⟩
  · exact (opcodeTable_disjoint r hr q hq).resolve_right fun h => not_both_match_of_disjoint h hrw hqw
  · obtain ⟨r, hr, hrw⟩ := List.any_eq_true.mp h
    exact decode_ok_of_matches hr hrw
  · rw [← encodeAfterDecode w i hi]
    exact recognized_encode i

end Sys2Proof

namespace Sys2Proof.Machine

/-! ### The result of a step (R261, R265) -/

section StepResults
variable {s t : State}

theorem opStep_of_step (h : step s = .next t) : opStep s = .next (.stepped (stepReport s t), t) := by
  rw [opStep, h]

theorem stepReport_of_halted {e : FatalError} (ht : t.status = .halted e) : stepReport s t = .fatal e := by
  rw [stepReport, ht]

theorem stepReport_of_blocked (ht : t.status = .running) (hact : s.nextAction = .blocked) :
    stepReport s t = .blocked := by
  simp only [stepReport, ht, hact]

theorem stepReport_of_resume {k : Nibble} (ht : t.status = .running) (hact : s.nextAction = .resume k) :
    stepReport s t = .resumed k := by
  simp only [stepReport, ht, hact]

theorem stepReport_of_unknown {op : Word} (ht : t.status = .running) (hact : s.nextAction = .unknown op) :
    stepReport s t = .unknownOpcode op s.pc := by
  simp only [stepReport, ht, hact]

theorem stepReport_of_run {i : Instr} (ht : t.status = .running) (hact : s.nextAction = .run i) :
    stepReport s t = .executed := by
  simp only [stepReport, ht, hact]

/-! ### The action a state's step takes (R265), and that it takes one -/

theorem nextAction_of_isBlocked (h : s.IsBlocked) : s.nextAction = .blocked := by
  obtain ⟨hs, ha, hp⟩ := h
  simp only [State.nextAction, hs, ha, hp, if_true]

theorem nextAction_of_pendingKey {k : Nibble} (hs : s.status = .running) (ha : s.awaitingKey = true)
    (hp : s.pendingKey = some k) : s.nextAction = .resume k := by
  simp only [State.nextAction, hs, ha, hp, if_true]

theorem nextAction_of_outOfBounds (hs : s.status = .running) (ha : s.awaitingKey = false)
    (hpc : 0xFFF < s.pc.toNat + 1) : s.nextAction = .outOfBounds := by
  have hfetch : ¬ s.canFetch = true := by simpa [State.canFetch] using hpc
  rw [State.nextAction, hs, ha]
  exact if_neg hfetch

theorem nextAction_of_unknown (h : s.Ready) (hd : decode s.fetchWord = .error (.unrecognized s.fetchWord)) :
    s.nextAction = .unknown s.fetchWord := by
  rw [nextAction_of_ready h, hd]

theorem nextAction_of_decoded {i : Instr} (h : s.Ready) (hd : decode s.fetchWord = .ok i) :
    s.nextAction = .run i := by
  rw [nextAction_of_ready h, hd]

theorem step_of_outOfBounds (hs : s.status = .running) (ha : s.awaitingKey = false)
    (hpc : 0xFFF < s.pc.toNat + 1) : step s = .next (s.raise (.fetchOutOfBounds s.pc)) := by
  rw [step, nextAction_of_outOfBounds hs ha hpc]

/-- Every action answers a next state (R260). -/
theorem step_next (s : State) : ∃ t, step s = .next t := by
  rw [step]
  cases s.nextAction with
  | run i => exact exec_next i s
  | _ => exact ⟨_, rfl⟩

/-- Only CALL on a full stack and RET on an empty one raise a fatal error (R120, R122); every other arm of `exec`
keeps the status. -/
theorem exec_raises_or_keeps_status {i : Instr} (h : exec i s = .next t) :
    ((∃ nnn, i = .call nnn) ∧ s.sp.val = 16 ∧ t = s.raise (.stackOverflow s.pc)) ∨
    (i = .ret ∧ s.sp.val = 0 ∧ t = s.raise (.stackUnderflow s.pc)) ∨
    (¬ ((∃ nnn, i = .call nnn) ∧ s.sp.val = 16) ∧ ¬ (i = .ret ∧ s.sp.val = 0) ∧ t.status = s.status) := by
  cases i with
  | call nnn =>
    obtain ⟨hsp, rfl⟩ | ⟨hsp, rfl⟩ := execCall_cases h
    · exact .inr (.inr ⟨fun hfull => hsp.ne hfull.2, nofun, rfl⟩)
    · exact .inl ⟨⟨nnn, rfl⟩, by omega, rfl⟩
  | ret =>
    obtain ⟨hsp, rfl⟩ | ⟨hsp, rfl⟩ := execRet_cases h
    · exact .inr (.inl ⟨rfl, hsp, rfl⟩)
    · exact .inr (.inr ⟨nofun, fun hempty => hsp hempty.2, rfl⟩)
  | addReg | sub | shr | subn | shl =>
    obtain rfl := Host.Outcome.next.inj h
    exact .inr (.inr ⟨nofun, nofun, writeFlagged_status ..⟩)
  | ldMemVx =>
    obtain rfl := Host.Outcome.next.inj h
    exact .inr (.inr ⟨nofun, nofun, by rw [advance_status, storeRegs_frame]⟩)
  | ldVxMem =>
    obtain rfl := Host.Outcome.next.inj h
    exact .inr (.inr ⟨nofun, nofun, by rw [advance_status, loadRegs_frame]⟩)
  | _ =>
    obtain rfl := Host.Outcome.next.inj h
    exact .inr (.inr ⟨nofun, nofun, rfl⟩)

end StepResults

/-! ### The statements about the step -/

/-- Settles O7: the bound check on PC as it stands, and the fetched word in the spec's arithmetic. -/
theorem fetchBoundAndByteOrder : Obligations.FetchBoundAndByteOrder := by
  intro s hs ha
  refine ⟨fun hpc => ?_, fun hpc => ⟨by omega, by omega, fetchWord_toNat s⟩⟩
  have hstep := step_of_outOfBounds hs ha hpc
  refine ⟨hstep, ?_⟩
  rw [opStep_of_step hstep, stepReport_of_halted (raise_status ..)]
  rfl

/-- Settles O8: the step only advances PC; from 0xFFE that leaves PC where the bound check fails. -/
theorem unknownWordIsNoop : Obligations.UnknownWordIsNoop := by
  intro s hready hd
  have hact := nextAction_of_unknown hready hd
  have hstep : step s = .next s.advance := by rw [step, hact]; rfl
  obtain ⟨hs, ha, hpc⟩ := hready
  refine ⟨s.advance, ?_, ?_, rfl, fun _ => rfl, fun hlast => ?_⟩
  · rw [opStep_of_step hstep, stepReport_of_unknown (t := s.advance) hs hact]
  · rw [advance_pc]
    bv_omega
  · have hnext : s.advance.pc = 0x1000#16 := by rw [advance_pc, hlast]; rfl
    have hout : step s.advance = .next (s.advance.raise (.fetchOutOfBounds s.advance.pc)) :=
      step_of_outOfBounds hs ha (by rw [hnext]; decide)
    rw [hout, State.raise, hnext]

/-- Settles O12: each case of what a step can do is one branch of the chain of checks. -/
theorem stepReportPriority : Obligations.StepReportPriority := by
  intro s
  obtain ⟨t, h⟩ := step_next s
  refine ⟨_, t, opStep_of_step h, ?_⟩
  obtain ⟨⟨e, hs⟩, rfl⟩ | ⟨hblocked, rfl⟩ | ⟨hs, ha, k, hp, rfl⟩ | ⟨hs, ha, hpc, rfl⟩ | ⟨hready, hd, rfl⟩ |
    ⟨hready, i, hd, hexec⟩ := step_cases h
  · simp only [hs, stepReport_of_halted hs]
  · have hact := nextAction_of_isBlocked hblocked
    obtain ⟨hs, ha, hp⟩ := hblocked
    simp only [hs, ha, if_true]
    exact .inl ⟨hp, stepReport_of_blocked hs hact⟩
  · simp only [hs, ha, if_true]
    exact .inr ⟨k, hp, stepReport_of_resume hs (nextAction_of_pendingKey hs ha hp)⟩
  · simp only [hs, ha, hpc, if_true, if_false, Bool.false_eq_true]
    exact stepReport_of_halted (raise_status ..)
  · have hact := nextAction_of_unknown hready hd
    obtain ⟨hs, ha, hpc⟩ := hready
    simp only [hs, ha, Nat.not_lt.mpr hpc, if_false, Bool.false_eq_true, hd]
    exact stepReport_of_unknown hs hact
  · have hact := nextAction_of_decoded hready hd
    obtain ⟨hs, ha, hpc⟩ := hready
    simp only [hs, ha, Nat.not_lt.mpr hpc, if_false, Bool.false_eq_true, hd]
    obtain ⟨hi, hsp, rfl⟩ | ⟨hi, hsp, rfl⟩ | ⟨hcall, hret, ht⟩ := exec_raises_or_keeps_status hexec
    · exact .inl ⟨hi, hsp, stepReport_of_halted (raise_status ..)⟩
    · exact .inr (.inl ⟨hi, hsp, stepReport_of_halted (raise_status ..)⟩)
    · exact .inr (.inr ⟨hcall, hret, stepReport_of_run (ht.trans hs) hact⟩)

end Sys2Proof.Machine

/-! ## Proofs of the family 40_display: CLS, and the same sprite drawn twice

What one DRW does to a pixel and to VF is what `drwTogglesCoveredPixels` says of it; here it is read off a given run,
once, and two runs are composed. -/
namespace Sys2Proof.Machine

/-- Settles O15, from the pixels of the cleared framebuffer. -/
theorem clsClearsScreen : Obligations.ClsClearsScreen :=
  fun _ => ⟨_, rfl, pixel_clearedFb, rfl, fun _ => rfl⟩

section DrawTwice
variable {s t u w : State} {x y n : Nibble}

/-- Some pixel the sprite of `DXYN` covers is set, so that drawing it collides (R103). -/
def State.drawCollides (s : State) (x y n : Nibble) : Prop :=
  ∃ px py, px < 64 ∧ py < 32 ∧ s.drawCovers x y n px py ∧ pixel s.fb px py = true

theorem spriteCovers_congr {rows rows' : Nat → Byte} {m vx vy px py : Nat} (h : ∀ r, r < m → rows r = rows' r) :
    SpriteCovers rows m vx vy px py ↔ SpriteCovers rows' m vx vy px py :=
  exists_congr fun r => and_congr_right fun hr => by rw [h r hr]

/-- The pixels covered depend on the coordinates and on the sprite's bytes alone. -/
theorem drawCovers_congr (hx : u.getV x = s.getV x) (hy : u.getV y = s.getV y)
    (hrows : ∀ r, r < n.toNat → u.byteAtIndex r = s.byteAtIndex r) (px py : Nat) :
    u.drawCovers x y n px py ↔ s.drawCovers x y n px py := by
  rw [State.drawCovers, State.drawCovers, hx, hy]
  exact spriteCovers_congr hrows

/-- What a run of DRW does to the pixels and to VF (R103, R104). -/
theorem drw_effect (h : exec (.drw x y n) s = .next t) :
    (∀ px py, px < 64 → py < 32 → s.drawCovers x y n px py → pixel t.fb px py = !pixel s.fb px py) ∧
    (∀ px py, px < 64 → py < 32 → ¬ s.drawCovers x y n px py → pixel t.fb px py = pixel s.fb px py) ∧
    (s.drawCollides x y n → t.getV regF = 1#8) ∧ (¬ s.drawCollides x y n → t.getV regF = 0#8) := by
  obtain ⟨t', h', htoggled, hkept, hone, hzero, -⟩ := drwTogglesCoveredPixels s x y n
  obtain rfl := Host.Outcome.next.inj (h.symm.trans h')
  exact ⟨htoggled, hkept, hone, hzero⟩

theorem drw_vf_eq_one_iff (h : exec (.drw x y n) s = .next t) : t.getV regF = 1#8 ↔ s.drawCollides x y n := by
  obtain ⟨-, -, hone, hzero⟩ := drw_effect h
  refine ⟨fun ht => ?_, hone⟩
  by_contra hc
  exact absurd ((hzero hc).symm.trans ht) (by decide)

theorem drw_vf_eq_zero_iff (h : exec (.drw x y n) s = .next t) : t.getV regF = 0#8 ↔ ¬ s.drawCollides x y n := by
  obtain ⟨-, -, hone, hzero⟩ := drw_effect h
  exact ⟨fun ht hc => absurd (ht.symm.trans (hone hc)) (by decide), hzero⟩

/-- A draw that covers what another draw covered, on the framebuffer that one left, undoes it: a covered pixel is
toggled twice, any other not at all (R104, R105). -/
theorem drw_drw_fb (hst : exec (.drw x y n) s = .next t) (huw : exec (.drw x y n) u = .next w) (hfb : u.fb = t.fb)
    (hcov : ∀ px py, u.drawCovers x y n px py ↔ s.drawCovers x y n px py) : w.fb = s.fb := by
  obtain ⟨htoggled, hkept, -⟩ := drw_effect hst
  obtain ⟨htoggled', hkept', -⟩ := drw_effect huw
  refine framebuffer_ext fun px py hpx hpy => ?_
  by_cases hc : s.drawCovers x y n px py
  · rw [htoggled' px py hpx hpy ((hcov px py).mpr hc), hfb, htoggled px py hpx hpy hc, Bool.not_not]
  · rw [hkept' px py hpx hpy (mt (hcov px py).mp hc), hfb, hkept px py hpx hpy hc]

/-- Such a second draw collides on the covered pixels that the first one set: those that were 0 (R105). -/
theorem drawCollides_after_drw (hst : exec (.drw x y n) s = .next t) (hfb : u.fb = t.fb)
    (hcov : ∀ px py, u.drawCovers x y n px py ↔ s.drawCovers x y n px py) :
    u.drawCollides x y n ↔
      ∃ px py, px < 64 ∧ py < 32 ∧ s.drawCovers x y n px py ∧ pixel s.fb px py = false := by
  obtain ⟨htoggled, -⟩ := drw_effect hst
  refine exists_congr fun px => exists_congr fun py => and_congr_right fun hpx => and_congr_right fun hpy => ?_
  rw [hcov]
  refine and_congr_right fun hc => ?_
  rw [hfb, htoggled px py hpx hpy hc, Bool.not_eq_true']

end DrawTwice

/-- Settles O17: the second draw undoes the first, and collides where the first one met a 0. -/
theorem drwTwiceRestores : Obligations.DrwTwiceRestores := by
  intro s t u w x y n hst huw hfb _ hx hy hrows
  have hcov := drawCovers_congr hx hy hrows
  have hcollides := drawCollides_after_drw hst hfb hcov
  have hone := (drw_vf_eq_one_iff huw).trans hcollides
  have hzero := (drw_vf_eq_zero_iff huw).trans (not_congr hcollides)
  refine ⟨drw_drw_fb hst huw hfb hcov, ?_, hone, fun ⟨px, py, hpx, hpy, hc⟩ hset => ⟨?_, ?_⟩, fun hnone => ⟨?_, ?_⟩⟩
  · rw [hone, hzero]
    exact (em _).symm
  · exact (drw_vf_eq_one_iff hst).mpr ⟨px, py, hpx, hpy, hc, hset px py hpx hpy hc⟩
  · refine hzero.mpr fun ⟨px, py, hpx, hpy, hc, hclear⟩ => ?_
    exact absurd (hset px py hpx hpy hc) (Bool.eq_false_iff.mp hclear)
  · exact (drw_vf_eq_zero_iff hst).mpr fun ⟨px, py, hpx, hpy, hc, _⟩ => hnone px py hpx hpy hc
  · exact hzero.mpr fun ⟨px, py, hpx, hpy, hc, _⟩ => hnone px py hpx hpy hc

end Sys2Proof.Machine

/-! ## Proofs of the family 41_control: JP, CALL, RET and the return stack

First CALL and RET with their conditions read forward, then what an instruction can do to the return stack, then the
statements. -/
namespace Sys2Proof.Machine

section ControlLaws
variable {s : State}

theorem toNat_absolute (nnn : Addr) : (absolute nnn).toNat = nnn.toNat :=
  BitVec.toNat_setWidth_of_le (by decide)

theorem exec_ret_of_ne_zero (hsp : s.sp.val ≠ 0) : exec .ret s = .next (s.popPc hsp) := dif_neg hsp

theorem exec_ret_of_empty (hsp : s.sp.val = 0) : exec .ret s = .next (s.raise (.stackUnderflow s.pc)) := dif_pos hsp

theorem exec_call_of_lt (nnn : Addr) (hsp : s.sp.val < 16) :
    exec (.call nnn) s = .next ((s.push (s.pc + 2#16) hsp).setPc (absolute nnn)) := dif_pos hsp

theorem exec_call_of_full (nnn : Addr) (hsp : ¬ s.sp.val < 16) :
    exec (.call nnn) s = .next (s.raise (.stackOverflow s.pc)) := dif_neg hsp

/-- The popped PC is the entry below SP. -/
theorem popPc_pc_of_sp_eq {j : Nat} (hsp : s.sp.val ≠ 0) (h : s.sp.val = j + 1) (hj : j < 16) :
    (s.popPc hsp).pc = s.stack[j] := by
  simp only [popPc_pc, h, Nat.add_sub_cancel]

end ControlLaws

/-! ### The instructions that write the return stack (R25, R120, R122) -/

section StackLaws
variable {s t : State}

/-- CALL writes the entry at SP; every other arm of `exec`, RET among them (D28), carries the stack through. -/
theorem exec_stack_eq_or_pushed {i : Instr} (h : exec i s = .next t) :
    t.stack = s.stack ∨ ∃ hsp : s.sp.val < 16, t.stack = s.stack.set s.sp.val (s.pc + 2#16) hsp := by
  cases i with
  | call =>
    obtain ⟨hsp, rfl⟩ | ⟨-, rfl⟩ := execCall_cases h
    · exact .inr ⟨hsp, rfl⟩
    · exact .inl rfl
  | ret => obtain ⟨-, rfl⟩ | ⟨-, rfl⟩ := execRet_cases h <;> exact .inl rfl
  | addReg | sub | shr | subn | shl =>
    obtain rfl := Host.Outcome.next.inj h
    exact .inl (writeFlagged_stack ..)
  | ldMemVx =>
    obtain rfl := Host.Outcome.next.inj h
    exact .inl (by rw [advance_stack, storeRegs_frame])
  | ldVxMem =>
    obtain rfl := Host.Outcome.next.inj h
    exact .inl (by rw [advance_stack, loadRegs_frame])
  | _ =>
    obtain rfl := Host.Outcome.next.inj h
    exact .inl rfl

/-- A step that runs no instruction leaves the stack alone. -/
theorem step_stack_eq_or_pushed (h : step s = .next t) :
    t.stack = s.stack ∨ ∃ hsp : s.sp.val < 16, t.stack = s.stack.set s.sp.val (s.pc + 2#16) hsp := by
  obtain ⟨-, rfl⟩ | ⟨-, rfl⟩ | ⟨-, -, k, -, rfl⟩ | ⟨-, -, -, rfl⟩ | ⟨-, -, rfl⟩ | ⟨-, i, -, hexec⟩ := step_cases h
  case inr.inr.inr.inr.inr => exact exec_stack_eq_or_pushed hexec
  all_goals exact .inl rfl

end StackLaws

/-! ### The statements -/

/-- Settles O18: RET is `popPc`, which keeps the stack, or the raised underflow. -/
theorem retPopsOrUnderflows : Obligations.RetPopsOrUnderflows := by
  intro s
  refine ⟨fun hsp => ?_, exec_ret_of_empty⟩
  have hpred : (s.popPc hsp).sp.val + 1 = s.sp.val := Nat.sub_one_add_one hsp
  exact ⟨_, exec_ret_of_ne_zero hsp, hpred, popPc_pc_of_sp_eq hsp hpred.symm, rfl, fun _ => rfl⟩

/-- Settles O19, from the value of the zero-extended target. -/
theorem jumpSetsPc : Obligations.JumpSetsPc :=
  fun _ nnn => ⟨_, rfl, toNat_absolute nnn, fun _ => rfl, rfl⟩

/-- Settles O21: CALL is `push` and the jump, or the raised overflow. -/
theorem callPushesOrOverflows : Obligations.CallPushesOrOverflows := by
  intro s nnn
  refine ⟨fun hsp => ⟨_, exec_call_of_lt nnn hsp, ?_, fun j hj hne => ?_, rfl, toNat_absolute nnn, rfl, fun _ => rfl⟩,
    fun hfull => exec_call_of_full nnn hfull.not_lt⟩
  · exact Vector.getElem_set_self hsp
  · exact Vector.getElem_set_ne hsp hj hne.symm

/-- Settles O22: RET pops the entry below `u`'s SP, which is the one CALL pushed. -/
theorem retUndoesCall : Obligations.RetUndoesCall := by
  intro s t u nnn hsp hcall hu hentry
  obtain rfl := Host.Outcome.next.inj ((exec_call_of_lt nnn hsp).symm.trans hcall)
  have husp : u.sp.val = s.sp.val + 1 := congrArg Fin.val hu
  have hpos : u.sp.val ≠ 0 := by omega
  refine ⟨_, exec_ret_of_ne_zero hpos, ?_, Fin.ext ?_⟩
  · calc (u.popPc hpos).pc = u.stack[s.sp.val] := popPc_pc_of_sp_eq hpos husp hsp
      _ = (s.stack.set s.sp.val (s.pc + 2#16))[s.sp.val] := hentry hsp
      _ = s.pc + 2#16 := Vector.getElem_set_self hsp
  · exact Nat.sub_eq_of_eq_add husp

/-- Settles O23: the one entry a step can write is the one at SP, above every entry in use. -/
theorem liveStackEntriesKept : Obligations.LiveStackEntriesKept := by
  intro s t h j hj hlive
  obtain hstack | ⟨hsp, hstack⟩ := step_stack_eq_or_pushed h
  · simp only [hstack]
  · simp only [hstack]
    exact Vector.getElem_set_ne hsp hj hlive.ne'

end Sys2Proof.Machine

/-! ## Proofs of the family 42_skip: the conditional skips

A skip's whole effect is `skipIf` on its condition; what that does to PC and leaves unchanged is said once, for every
instruction whose meaning is a skip. -/
namespace Sys2Proof.Machine

section SkipLaws
variable {s : State} {i : Instr}

theorem pcFrame_skipIf (s : State) (taken : Bool) : s.PcFrame (s.skipIf taken) := ⟨fun _ => rfl, rfl⟩

theorem skipIf_pc_eq_add (s : State) (taken : Bool) :
    (s.skipIf taken).pc = s.pc + (if taken then 4#16 else 2#16) := by
  cases taken <;> rfl

/-- An instruction that skips if two bytes are equal (R141, R143). -/
theorem exec_skip_of_beq {a b : Byte} (h : exec i s = .next (s.skipIf (a == b))) :
    ∃ t, exec i s = .next t ∧ s.PcFrame t ∧ t.pc = s.pc + (if a.toNat = b.toNat then 4#16 else 2#16) := by
  refine ⟨_, h, pcFrame_skipIf .., ?_⟩
  simp only [skipIf_pc_eq_add, beq_iff_eq, BitVec.toNat_inj]

/-- An instruction that skips if two bytes differ (R142, R144). -/
theorem exec_skip_of_bne {a b : Byte} (h : exec i s = .next (s.skipIf (a != b))) :
    ∃ t, exec i s = .next t ∧ s.PcFrame t ∧ t.pc = s.pc + (if a.toNat = b.toNat then 2#16 else 4#16) := by
  refine ⟨_, h, pcFrame_skipIf .., ?_⟩
  simp only [skipIf_pc_eq_add, bne_iff_ne, ite_not, BitVec.toNat_inj]

end SkipLaws

/-- Settles O24: each of the four instructions is one skip on the comparison of two bytes. -/
theorem skipsCompareRegisters : Obligations.SkipsCompareRegisters :=
  fun _ _ _ _ => ⟨exec_skip_of_beq rfl, exec_skip_of_bne rfl, exec_skip_of_beq rfl, exec_skip_of_bne rfl⟩

end Sys2Proof.Machine

/-! ## Proofs of the family 43_alu: register loads, arithmetic, logic, shifts and RND

An instruction of this family is one of two register writes and the advance of PC: `setV`, or `writeFlagged` where VF is
a flag. What each of the two does to the registers and leaves unchanged is said once; what is left for an instruction is
the value of its result byte and of its flag. -/
namespace Sys2Proof.Machine

section AluLaws
variable {s : State} {i : Instr} {x : Nibble}

/-- A write of V[X] that sets no flag leaves VF alone unless X = F. -/
theorem registerFrame_setV (b : Byte) : s.RegisterFrame (s.setV x b).advance (· = x) :=
  ⟨fun _ hr => getV_setV_other b hr, fun _ => rfl, rfl⟩

/-- An instruction that writes V[X] and no flag (R162 to R167). -/
theorem exec_of_setV {b : Byte} (h : exec i s = .next (s.setV x b).advance) :
    ∃ t, exec i s = .next t ∧ t.getV x = b ∧ t.pc = s.pc + 2#16 ∧ s.RegisterFrame t (· = x) :=
  ⟨_, h, getV_setV_same x b, rfl, registerFrame_setV b⟩

/-- Such an instruction, its result given bit by bit (R165 to R167). -/
theorem exec_of_setV_bits {b : Byte} {bits : Nat → Bool} (h : exec i s = .next (s.setV x b).advance)
    (hbits : ∀ k, b.getLsbD k = bits k) :
    ∃ t, exec i s = .next t ∧ t.pc = s.pc + 2#16 ∧ s.RegisterFrame t (· = x) ∧
      ∀ k, (t.getV x).getLsbD k = bits k := by
  obtain ⟨t, ht, hx, hpc, hframe⟩ := exec_of_setV h
  exact ⟨t, ht, hpc, hframe, hx ▸ hbits⟩

/-- In either order of the two writes. -/
theorem sameButVPc_writeFlagged (b : Byte) (c : Bool) : s.SameButVPc (s.writeFlagged x b c).advance := by
  unfold State.SameButVPc State.writeFlagged
  split <;> rfl

theorem registerFrame_writeFlagged (b : Byte) (c : Bool) :
    s.RegisterFrame (s.writeFlagged x b c).advance (fun r => r = x ∨ r = regF) where
  others r hr := by
    obtain ⟨hx, hF⟩ := not_or.mp hr
    exact getV_writeFlagged_other hx hF b c
  memory := readByte_writeFlagged x b c
  rest := sameButVPc_writeFlagged b c

/-- An instruction that writes V[X] and VF as a flag: with X = F, the one that VF_ORDER says is written last stays
(R160, D4). -/
theorem exec_of_writeFlagged {b result flag : Byte} {c : Bool}
    (h : exec i s = .next (s.writeFlagged x b c).advance) (hb : b = result) (hc : flagByte c = flag) :
    ∃ t, exec i s = .next t ∧ t.pc = s.pc + 2#16 ∧ s.RegisterFrame t (fun r => r = x ∨ r = regF) ∧
      (x ≠ regF → t.getV x = result ∧ t.getV regF = flag) ∧
      (x = regF → s.cfg.vfOrder = .resultLast → t.getV regF = result) ∧
      (x = regF → s.cfg.vfOrder = .flagLast → t.getV regF = flag) := by
  subst hb hc
  refine ⟨_, h, ?_, registerFrame_writeFlagged b c, fun hx => ⟨?_, ?_⟩, fun hx ho => ?_, fun hx ho => ?_⟩
  · rw [advance_pc, writeFlagged_pc]
  · rw [getV_advance, writeFlagged_getV hx, if_pos rfl]
  · rw [getV_advance, writeFlagged_getV hx, if_neg hx.symm, if_pos rfl]
  · rw [getV_advance, hx, writeFlagged_getV_regF, if_pos rfl, ho]
  · rw [getV_advance, hx, writeFlagged_getV_regF, if_pos rfl, ho]

end AluLaws

/-! ### The value of a flag (R161, R168 to R172) -/

section FlagLaws
variable (a b : Byte)

theorem flagByte_carry : flagByte (carry a b) = if 255 < a.toNat + b.toNat then 1#8 else 0#8 := by
  simp only [flagByte, carry, decide_eq_true_eq]

theorem flagByte_noBorrow : flagByte (noBorrow a b) = if b.toNat ≤ a.toNat then 1#8 else 0#8 := by
  simp only [flagByte, noBorrow, decide_eq_true_eq]

theorem toNat_flagByte (c : Bool) : (flagByte c).toNat = c.toNat := by
  cases c <;> rfl

theorem toNat_flagByte_shiftedOutRight : (flagByte (shiftedOutRight a)).toNat = a.toNat % 2 := by
  rw [toNat_flagByte, shiftedOutRight, BitVec.getLsbD, Nat.toNat_testBit, pow_zero, Nat.div_one]

theorem toNat_flagByte_shiftedOutLeft : (flagByte (shiftedOutLeft a)).toNat = a.toNat / 128 := by
  have ha : a.toNat < 256 := a.isLt
  rw [toNat_flagByte, shiftedOutLeft, BitVec.getLsbD, Nat.toNat_testBit]
  omega

/-- The true difference, made a natural number by adding 256 before V[Y] is taken away. -/
theorem toNat_sub_byte : (a - b).toNat = (a.toNat + 256 - b.toNat) % 256 := by
  have hb : b.toNat < 256 := b.isLt
  rw [BitVec.toNat_sub]
  omega

end FlagLaws

/-! ### The statements -/

/-- Settles O27: the sum of two bytes is the sum modulo 256. -/
theorem addImmediateWraps : Obligations.AddImmediateWraps := by
  intro s x nn
  obtain ⟨t, ht, hx, hpc, hframe⟩ := exec_of_setV (i := .addImm x nn) rfl
  exact ⟨t, ht, hx ▸ BitVec.toNat_add .., hpc, hframe⟩

/-- Settles O28, from the bits of OR, AND and XOR of two words. -/
theorem logicActsBitwise : Obligations.LogicActsBitwise :=
  fun _ _ _ =>
    ⟨exec_of_setV_bits rfl fun _ => BitVec.getLsbD_or, exec_of_setV_bits rfl fun _ => BitVec.getLsbD_and,
      exec_of_setV_bits rfl fun _ => BitVec.getLsbD_xor⟩

/-- Settles O29: the flagged write of the wrapped sum and its carry. -/
theorem addSetsCarry : Obligations.AddSetsCarry := by
  intro s x y result flag hresult hflag
  refine exec_of_writeFlagged rfl (BitVec.eq_of_toNat_eq ?_) ((flagByte_carry ..).trans hflag.symm)
  exact (BitVec.toNat_add ..).trans hresult.symm

/-- Settles O30: the flagged write of V[X] - V[Y] and its no-borrow. -/
theorem subSetsNoBorrow : Obligations.SubSetsNoBorrow := by
  intro s x y result flag hresult hflag
  refine exec_of_writeFlagged rfl (BitVec.eq_of_toNat_eq ?_) ((flagByte_noBorrow ..).trans hflag.symm)
  exact (toNat_sub_byte ..).trans hresult.symm

/-- Settles O31: the flagged write of V[Y] - V[X] and its no-borrow. -/
theorem subnSetsNoBorrow : Obligations.SubnSetsNoBorrow := by
  intro s x y result flag hresult hflag
  refine exec_of_writeFlagged rfl (BitVec.eq_of_toNat_eq ?_) ((flagByte_noBorrow ..).trans hflag.symm)
  exact (toNat_sub_byte ..).trans hresult.symm

/-- Settles O32: the meaning of SHR does not mention Y, and writes half of V[X] with the bit shifted out. -/
theorem shrShiftsVx : Obligations.ShrShiftsVx := by
  intro s x y result flag hresult hflag
  refine ⟨fun _ => rfl, exec_of_writeFlagged rfl (BitVec.eq_of_toNat_eq ?_) (BitVec.eq_of_toNat_eq ?_)⟩
  · rw [hresult, BitVec.toNat_ushiftRight, Nat.shiftRight_eq_div_pow, pow_one]
  · exact (toNat_flagByte_shiftedOutRight _).trans hflag.symm

/-- Settles O33: the meaning of SHL does not mention Y, and writes twice V[X] with the bit shifted out. -/
theorem shlShiftsVx : Obligations.ShlShiftsVx := by
  intro s x y result flag hresult hflag
  refine ⟨fun _ => rfl, exec_of_writeFlagged rfl (BitVec.eq_of_toNat_eq ?_) (BitVec.eq_of_toNat_eq ?_)⟩
  · rw [hresult, BitVec.toNat_shiftLeft, Nat.shiftLeft_eq, pow_one]
  · exact (toNat_flagByte_shiftedOutLeft _).trans hflag.symm

/-- Settles O34: V[X] ends as the AND of the draw and NN; a 0 of NN clears its bit, and 0xFF clears none. -/
theorem rndMasksDraw : Obligations.RndMasksDraw := by
  intro s x nn
  have hx : (s.draw.2.setV x (s.draw.1 &&& nn)).advance.getV x = Config.randomByte s.draws &&& nn :=
    getV_setV_same x _
  refine ⟨_, rfl, fun k => ?_, fun k hk => ?_, fun hnn => ?_, fun _ hr => getV_setV_other _ hr, rfl, fun _ => rfl⟩
  · rw [hx, BitVec.getLsbD_and]
  · rw [hx, BitVec.getLsbD_and, hk, Bool.and_false]
  · rw [hx, hnn]
    exact BitVec.and_allOnes

/-- Settles O26: each load is one write of V[X] and no flag. -/
theorem loadsWriteRegister : Obligations.LoadsWriteRegister :=
  fun _ _ _ _ => ⟨exec_of_setV rfl, exec_of_setV rfl, exec_of_setV rfl⟩

end Sys2Proof.Machine

/-! ## Proofs of the family 44_index_memory: writes of I, decimal digits, and the runs of registers at I

First what the run operations store, load and leave unchanged, as far as the model's own laws leave it out; then the
three writes of I in the spec's arithmetic; then the statements. -/
namespace Sys2Proof.Machine

/-! ### Stores at I (R55, R203, R204) -/

section StoreLaws
variable {s u : State}

/-- An operation that changes only bytes at I + k for the k in `run`, then the advance of PC. -/
theorem storeFrame_advance {run : Nat → Prop} (hmem : u = { s with mem := u.mem })
    (hother : ∀ a, (∀ k, run k → a ≠ s.dataAddr k) → u.readByte a = s.readByte a) :
    s.StoreFrame u.advance (fun a => ∃ k, run k ∧ a = BitVec.ofNat 12 (s.index.toNat + k)) where
  memory a ha := hother a fun k hk e => ha ⟨k, hk, e.trans (dataAddr_eq_ofNat s k)⟩
  rest := by rw [hmem]; rfl

theorem storeDigits_hundreds (b : Byte) : (s.storeDigits b).readByte (s.dataAddr 0) = hundreds b := by
  have h01 : s.dataAddr 0 ≠ s.dataAddr 1 := mt (dataAddr_inj (by decide) (by decide)) (by decide)
  have h02 : s.dataAddr 0 ≠ s.dataAddr 2 := mt (dataAddr_inj (by decide) (by decide)) (by decide)
  rw [State.storeDigits, readByte_writeByte_other _ h02, readByte_writeByte_other _ h01, readByte_writeByte_same]

theorem storeDigits_tens (b : Byte) : (s.storeDigits b).readByte (s.dataAddr 1) = tens b := by
  have h12 : s.dataAddr 1 ≠ s.dataAddr 2 := mt (dataAddr_inj (by decide) (by decide)) (by decide)
  rw [State.storeDigits, readByte_writeByte_other _ h12, readByte_writeByte_same]

theorem storeDigits_ones (b : Byte) : (s.storeDigits b).readByte (s.dataAddr 2) = ones b :=
  readByte_writeByte_same ..

/-- `storeDigits` changes no byte but the three. -/
theorem storeDigits_other (b : Byte) {a : Addr} (h : ∀ k, k < 3 → a ≠ s.dataAddr k) :
    (s.storeDigits b).readByte a = s.readByte a := by
  rw [State.storeDigits, readByte_writeByte_other _ (h 2 (by decide)), readByte_writeByte_other _ (h 1 (by decide)),
    readByte_writeByte_other _ (h 0 (by decide))]

@[simp] theorem storeRegs_pc (x : Nibble) : (s.storeRegs x).pc = s.pc := by rw [storeRegs_frame]

end StoreLaws

/-! ### Loads at I (R205) -/

section LoadLaws
variable {s : State}

@[simp] theorem loadRegs_pc (x : Nibble) : (s.loadRegs x).pc = s.pc := by rw [loadRegs_frame]

@[simp] theorem readByte_loadRegs (x : Nibble) (a : Addr) : (s.loadRegs x).readByte a = s.readByte a :=
  readByte_congr (by rw [loadRegs_frame]) (by rw [loadRegs_frame]) a

/-- The register numbered k, for k up to X, is loaded from I + k. -/
theorem loadRegs_loaded (x : Nibble) {k : Nat} (hk : k ≤ x.toNat) :
    (s.loadRegs x).getV (BitVec.ofNat 4 k) = s.readByte (s.dataAddr k) := by
  have hnum : (BitVec.ofNat 4 k).toNat = k := Nat.mod_eq_of_lt (hk.trans_lt x.isLt)
  rw [loadRegs_getV, hnum, if_pos hk]

theorem registerFrame_loadRegs (x : Nibble) :
    s.RegisterFrame (s.loadRegs x).advance (fun r => r.toNat ≤ x.toNat) where
  others r hr := (loadRegs_getV x r).trans (if_neg hr)
  memory := readByte_loadRegs x
  rest := by unfold State.SameButVPc; rw [loadRegs_frame]; rfl

end LoadLaws

/-! ### Writes of I (R200 to R202) -/

section IndexLaws
variable {s : State} {i : Instr}

theorem toNat_indexPlus (b : Byte) : (s.indexPlus b).toNat = (s.index.toNat + b.toNat) % 4096 := by
  simp only [State.indexPlus, mask12, BitVec.toNat_setWidth, BitVec.toNat_add]
  omega

/-- Five times the largest byte still fits in I, so nothing wraps (R202). -/
theorem toNat_glyphAddr (b : Byte) : (glyphAddr b).toNat = b.toNat * 5 := by
  have hb : b.toNat < 256 := b.isLt
  simp only [glyphAddr, BitVec.toNat_mul, BitVec.toNat_setWidth, BitVec.toNat_ofNat]
  omega

/-- An instruction that writes I and advances PC, no flag among its effects. -/
theorem exec_of_setIndex {w : Word} {n : Nat} (h : exec i s = .next (s.setIndex w).advance) (hw : w.toNat = n) :
    ∃ t, exec i s = .next t ∧ t.index.toNat = n ∧
      t = { s with index := t.index, pc := s.pc + 2#16 } ∧ s.SameMemory t :=
  ⟨_, h, hw, rfl, fun _ => rfl⟩

end IndexLaws

/-! ### The statements -/

/-- Settles O37: the three addresses differ modulo 4096, so each digit stays where it was stored. -/
theorem bcdStoresDigits : Obligations.BcdStoresDigits := by
  intro s x
  refine ⟨_, rfl, ?_, ?_, ?_, rfl, storeFrame_advance (storeDigits_frame _) fun _ => storeDigits_other _⟩
  · rw [← Nat.add_zero s.index.toNat, ← dataAddr_eq_ofNat, readByte_advance, storeDigits_hundreds]
    exact BitVec.toNat_udiv
  · rw [← dataAddr_eq_ofNat, readByte_advance, storeDigits_tens, tens, BitVec.toNat_umod, BitVec.toNat_udiv]
    rfl
  · rw [← dataAddr_eq_ofNat, readByte_advance, storeDigits_ones]
    exact BitVec.toNat_umod

/-- Settles O38, from the law of the stored run and the frame of `storeRegs`. -/
theorem storeRegistersAtIndex : Obligations.StoreRegistersAtIndex := by
  intro s x
  refine ⟨_, rfl, fun k hk => execLdMemVx_stored rfl hk, ?_,
    storeFrame_advance (storeRegs_frame x) fun _ => storeRegs_other x⟩
  rw [advance_pc, storeRegs_pc]

/-- Settles O39, from the value of each loaded register and the frame of `loadRegs`. -/
theorem loadRegistersAtIndex : Obligations.LoadRegistersAtIndex := by
  intro s x
  refine ⟨_, rfl, fun k hk => ?_, ?_, registerFrame_loadRegs x⟩
  · rw [getV_advance, loadRegs_loaded x hk, dataAddr_eq_ofNat]
  · rw [advance_pc, loadRegs_pc]

/-- Settles O36: each instruction is one write of I, its value in natural arithmetic. -/
theorem indexWrites : Obligations.IndexWrites :=
  fun _ _ nnn =>
    ⟨exec_of_setIndex rfl (toNat_absolute nnn), exec_of_setIndex rfl (toNat_indexPlus _),
      exec_of_setIndex rfl (toNat_glyphAddr _)⟩

end Sys2Proof.Machine

/-! ## Proofs of the family 45_timer_input: the key skips, the key wait and the timers

The latch read of a key skip is said once for each range of the index byte; a blocked step once, for the wait that an
instruction has just entered and for any other. -/
namespace Sys2Proof.Machine

section KeyLaws
variable {s : State} {i : Instr} {b : Byte}

theorem keyPressed_of_lt (hb : b.toNat < 16) : s.keyPressed b = s.keyBit (BitVec.ofNat 4 b.toNat) := by
  rw [State.keyPressed, if_pos hb, BitVec.ofNat_toNat]

theorem keyPressed_of_notPressed (hb : 16 ≤ b.toNat) (ho : s.cfg.keyOor = .notPressed) : s.keyPressed b = false := by
  rw [State.keyPressed, if_neg hb.not_gt, ho]

theorem keyPressed_of_lowNibble (hb : 16 ≤ b.toNat) (ho : s.cfg.keyOor = .lowNibble) :
    s.keyPressed b = s.keyBit (BitVec.ofNat 4 (b.toNat % 16)) := by
  have hnibble : BitVec.ofNat 4 (b.toNat % 16) = b.setWidth 4 := by bv_omega
  rw [State.keyPressed, if_neg hb.not_gt, ho, hnibble]

/-- The three cases of R230 leave no other value for the answer. -/
theorem keyPressed_eq {pressed : Bool} (hlt : b.toNat < 16 → pressed = s.keyBit (BitVec.ofNat 4 b.toNat))
    (hnot : 16 ≤ b.toNat → s.cfg.keyOor = .notPressed → pressed = false)
    (hlow : 16 ≤ b.toNat → s.cfg.keyOor = .lowNibble → pressed = s.keyBit (BitVec.ofNat 4 (b.toNat % 16))) :
    s.keyPressed b = pressed := by
  obtain hb | hb := Nat.lt_or_ge b.toNat 16
  · rw [keyPressed_of_lt hb, hlt hb]
  · cases ho : s.cfg.keyOor with
    | notPressed => rw [keyPressed_of_notPressed hb ho, hnot hb ho]
    | lowNibble => rw [keyPressed_of_lowNibble hb ho, hlow hb ho]

/-- An instruction whose whole effect is a conditional skip (R140). -/
theorem exec_of_skipIf {taken : Bool} (h : exec i s = .next (s.skipIf taken)) :
    ∃ t, exec i s = .next t ∧ s.PcFrame t ∧ t.pc = s.pc + (if taken then 4#16 else 2#16) :=
  ⟨_, h, pcFrame_skipIf s taken, skipIf_pc_eq_add s taken⟩

/-- The same with the condition negated. -/
theorem exec_of_skipIf_not {held : Bool} (h : exec i s = .next (s.skipIf !held)) :
    ∃ t, exec i s = .next t ∧ s.PcFrame t ∧ t.pc = s.pc + (if held then 2#16 else 4#16) := by
  refine ⟨_, h, pcFrame_skipIf .., ?_⟩
  rw [skipIf_pc_eq_add]
  cases held <;> rfl

theorem step_of_isBlocked (h : s.IsBlocked) : step s = .next s := by
  rw [step, nextAction_of_isBlocked h]

/-- The wait starts with no captured key, whatever the latch holds (R234, D7). -/
theorem isBlocked_enterWait_advance (x : Nibble) (hs : s.status = .running) : (s.enterWait x).advance.IsBlocked :=
  ⟨hs, rfl, rfl⟩

/-- The sound query changes nothing and answers whether ST is above 0 (R276, D19). -/
theorem transact_soundTimerActive (s : State) :
    ∃ b, transact .soundTimerActive s = .next (.answer b, s) ∧ (b = true ↔ s.st.toNat ≠ 0) :=
  ⟨s.st != 0#8, rfl, by rw [bne_iff_ne, ne_eq, ← BitVec.toNat_inj]; rfl⟩

end KeyLaws

/-! ### The statements about keys and timers -/

/-- Settles O25: both skips are one skip on the latch read, taken as it is or negated. -/
theorem keySkipsReadLatch : Obligations.KeySkipsReadLatch := by
  intro s x pressed hlt hnot hlow
  have hread : s.keyPressed (s.getV x) = pressed := keyPressed_eq hlt hnot hlow
  have hskp : exec (.skp x) s = .next (s.skipIf pressed) := hread ▸ rfl
  have hsknp : exec (.sknp x) s = .next (s.skipIf (!pressed)) := hread ▸ rfl
  exact ⟨exec_of_skipIf hskp, exec_of_skipIf_not hsknp⟩

/-- Settles O42: LD Vx, K enters the wait and advances, and leaves a running core blocked. -/
theorem keyWaitEntered : Obligations.KeyWaitEntered := fun s x =>
  ⟨(s.enterWait x).advance, rfl, rfl, rfl, rfl, rfl, fun _ => rfl,
    fun hs => step_of_isBlocked (isBlocked_enterWait_advance x hs)⟩

/-- Settles O10: a blocked core's action is to wait, and the report names it. -/
theorem blockedStepInert : Obligations.BlockedStepInert := by
  intro s h
  have ⟨hs, _, _⟩ := h
  rw [opStep_of_step (step_of_isBlocked h), stepReport_of_blocked hs (nextAction_of_isBlocked h)]

/-- Settles O41: each instruction is one write of a timer; the sound query reads the ST it wrote. -/
theorem timerWrites : Obligations.TimerWrites := fun _ _ =>
  ⟨⟨_, rfl, rfl, rfl, fun _ => rfl⟩, ⟨_, rfl, rfl, rfl, fun _ => rfl, transact_soundTimerActive _⟩⟩

end Sys2Proof.Machine

/-! ## Proofs of the family 60_exceptions: fatal errors, the halt and its way out, the tick and the host ports

First what `tickTimers` does; then what a step does to the status, that a halted core does nothing, and that no host
operation but `reset()` and `construct()` leaves a halt; then the values `reset()` leaves; then the statements. -/
namespace Sys2Proof.Machine

/-! ### The catch-up of the timers (R275) -/

section TickLaws
variable (ms : Nat) (s : State)

/-- (T - 1) / 50 ticks for the time T accumulated, each taking 50 units and 1 from every counter above 0; nothing else
changes (D17). -/
theorem opTickTimers_spec :
    (opTickTimers ms s).2.tAcc = s.tAcc + 3 * ms - 50 * ((s.tAcc + 3 * ms - 1) / 50) ∧
    (opTickTimers ms s).2.dt.toNat = s.dt.toNat - (s.tAcc + 3 * ms - 1) / 50 ∧
    (opTickTimers ms s).2.st.toNat = s.st.toNat - (s.tAcc + 3 * ms - 1) / 50 ∧
    (opTickTimers ms s).2 = { s with
      tAcc := (opTickTimers ms s).2.tAcc, dt := (opTickTimers ms s).2.dt, st := (opTickTimers ms s).2.st } :=
  tickLoop_spec (s.tAcc + 3 * ms) { s with tAcc := s.tAcc + 3 * ms } le_rfl

theorem opTickTimers_status : (opTickTimers ms s).2.status = s.status := by
  obtain ⟨-, -, -, hframe⟩ := opTickTimers_spec ms s
  rw [hframe]

theorem readByte_opTickTimers (a : Addr) : (opTickTimers ms s).2.readByte a = s.readByte a := by
  obtain ⟨-, -, -, hframe⟩ := opTickTimers_spec ms s
  rw [hframe]
  rfl

end TickLaws

/-! ### The halt (R262, R264, R266) -/

section HaltLaws
variable {s t : State} {e : FatalError}

/-- A step changes the status in one way only: by raising a fatal error (R262). -/
theorem step_keeps_status_or_raises (h : step s = .next t) : t.status = s.status ∨ ∃ e, t = s.raise e := by
  obtain ⟨-, rfl⟩ | ⟨-, rfl⟩ | ⟨-, -, k, -, rfl⟩ | ⟨-, -, -, rfl⟩ | ⟨-, -, rfl⟩ | ⟨-, i, -, hexec⟩ := step_cases h
  case inr.inr.inr.inl => exact .inr ⟨_, rfl⟩
  case inr.inr.inr.inr.inr =>
    obtain ⟨-, -, hraise⟩ | ⟨-, -, hraise⟩ | ⟨-, -, hkept⟩ := exec_raises_or_keeps_status hexec
    · exact .inr ⟨_, hraise⟩
    · exact .inr ⟨_, hraise⟩
    · exact .inl hkept
  all_goals exact .inl rfl

/-- The first check of a step answers for a halted core (R265, R266, D16). -/
theorem step_of_halted (hs : s.status = .halted e) : step s = .next s := by
  simp only [step, State.nextAction, hs]

theorem opStep_of_halted (hs : s.status = .halted e) : opStep s = .next (.stepped (.fatal e), s) := by
  rw [opStep_of_step (step_of_halted hs), stepReport_of_halted hs]

@[simp] theorem writeBytes_status (a : Addr) (bytes : List Byte) : (s.writeBytes a bytes).status = s.status := by
  rw [writeBytes_frame]

/-- `load` is allowed in any status and keeps it (R302, D25). -/
theorem opLoad_status {bytes : List Byte} {r : HostResult} (h : opLoad bytes s = (r, t)) : t.status = s.status := by
  unfold opLoad at h
  split at h <;> cases h
  · rfl
  · exact writeBytes_status ..

theorem opSetKey_status {k : Nat} {pressed : Bool} {r : HostResult} (h : opSetKey k pressed s = .next (r, t)) :
    t.status = s.status := by
  unfold opSetKey at h
  split at h
  · cases h
    rfl
  · cases h

/-- Case by case over the host operations: none but `reset()` and `construct()` leaves a halt (R264). -/
theorem transact_status_of_halted {op : HostOp} {r : HostResult} (hs : s.status = .halted e) (hreset : op ≠ .reset)
    (hconstruct : op ≠ .construct) (h : transact op s = .next (r, t)) : t.status = .halted e := by
  cases op with
  | reset => exact absurd rfl hreset
  | construct => exact absurd rfl hconstruct
  | step =>
    cases (opStep_of_halted hs).symm.trans h
    exact hs
  | load => exact (opLoad_status (Host.Outcome.next.inj h)).trans hs
  | tickTimers ms =>
    cases h
    exact (opTickTimers_status ms s).trans hs
  | setKey => exact (opSetKey_status h).trans hs
  | isFramebufferDirty | consumeFramebuffer | soundTimerActive =>
    cases h
    exact hs

end HaltLaws

/-! ### What `reset()` leaves (R67, R301) -/

section ResetLaws
variable (s : State)

/-- What an unlisted address of the font region reads as is FONT (R67). -/
theorem blank_of_lt {a : Nat} (h : a < fontSize) : s.blank a = s.cfg.font[a] := dif_pos h

theorem getV_resetVm (r : Nibble) : s.resetVm.getV r = 0#8 := Vector.getElem_replicate r.isLt

theorem stack_resetVm {j : Nat} (h : j < 16) : s.resetVm.stack[j] = 0#16 := Vector.getElem_replicate h

end ResetLaws

/-! ### The statements -/

/-- Settles O13: the only change of status is a raise, and a raise writes nothing else. -/
theorem fatalErrorWritesNothing : Obligations.FatalErrorWritesNothing := by
  intro s t e hs h ht
  obtain hkept | ⟨e', rfl⟩ := step_keeps_status_or_raises h
  · cases (hs.symm.trans hkept.symm).trans ht
  · obtain rfl : e' = e := Status.halted.inj ht
    exact ⟨rfl, by rw [opStep_of_step h, stepReport_of_halted ht]⟩

/-- Settles O43: (T - 1) / 50 is the number of periods that the accumulated time T exceeds. -/
theorem tickTimersCatchesUp : Obligations.TickTimersCatchesUp := by
  intro s ms
  obtain ⟨hacc, hdt, hst, hframe⟩ := opTickTimers_spec ms s
  exact ⟨(opTickTimers ms s).2, (s.tAcc + 3 * ms - 1) / 50, rfl, by omega, by omega, by omega, hdt, hst, hframe,
    readByte_opTickTimers ms s⟩

/-- Settles O45: each port is its answer beside the state; the sound query's answer is the one O41 reads. -/
theorem hostPortsAnswer : Obligations.HostPortsAnswer := fun s =>
  ⟨⟨_, rfl, rfl⟩, ⟨_, _, rfl, fun _ _ => rfl, rfl, rfl⟩, transact_soundTimerActive s⟩

/-- Settles O47, from what `resetVm` reads as in memory, the registers and the stack. -/
theorem resetRestoresCore : Obligations.ResetRestoresCore := by
  intro s
  refine ⟨s.resetVm, rfl, fun a h => ?_, fun a h => ?_, getV_resetVm s, rfl, rfl, rfl, fun _ => stack_resetVm s,
    rfl, rfl, rfl, rfl, rfl, rfl, rfl, rfl, rfl, rfl, rfl⟩
  · rw [readByte_resetVm, if_pos h, blank_of_lt s h]
  · rw [readByte_resetVm, if_neg (Nat.not_lt.mpr h)]

/-- Settles O57: no other operation leaves a halt, and `reset()` answers a running core. -/
theorem haltLeftOnlyByReset : Obligations.HaltLeftOnlyByReset := fun _ _ hs =>
  ⟨fun _ _ _ hreset hconstruct h => transact_status_of_halted hs hreset hconstruct h, _, rfl, rfl, rfl⟩

end Sys2Proof.Machine

/-! ## Proofs of the family other: the invariants, what a host operation can do, and the remaining statements

First the values `construct()` leaves; then that each operation on the state keeps the invariants, PC and I within their
bounds where the operation writes them; then that an instruction and a step do; then what a host operation can leave,
said once, from which the invariants, the time kept and the parameters follow; then the statements. -/
namespace Sys2Proof.Machine

/-! ### The values `construct()` leaves (R40, R67, R300) -/

/-- What an unlisted address above the font region reads as is 0 (R67). -/
theorem blank_of_ge (s : State) {a : Nat} (h : fontSize ≤ a) : s.blank a = 0#8 := dif_neg (Nat.not_lt.mpr h)

section ConstructLaws
variable (cfg : Config) (draws : Nat)

/-- A fresh machine's memory lists no byte. -/
theorem readByte_construct (a : Addr) :
    (State.construct cfg draws).readByte a = (State.construct cfg draws).blank a.toNat := rfl

theorem getV_construct (r : Nibble) : (State.construct cfg draws).getV r = 0#8 := Vector.getElem_replicate r.isLt

theorem stack_construct {j : Nat} (h : j < 16) : (State.construct cfg draws).stack[j] = 0#16 :=
  Vector.getElem_replicate h

theorem keyBit_construct (k : Nibble) : (State.construct cfg draws).keyBit k = false := Vector.getElem_replicate k.isLt

end ConstructLaws

/-! ### The operations keep the invariants (R41) -/

section InvLaws
variable {s t : State}

/-- The invariants speak of I, PC, the stack entries, the captured key, the wait, the status, memory and FONT alone. -/
theorem State.Inv.of_frame (h : s.Inv)
    (hframe : t = { s with
      v := t.v, sp := t.sp, dt := t.dt, st := t.st, tAcc := t.tAcc, key := t.key, awaitReg := t.awaitReg, fb := t.fb,
      dirty := t.dirty, draws := t.draws }) : t.Inv := by
  rw [hframe]
  exact ⟨h.index_le, h.pc_le, h.stack_le, h.pending_awaits, h.awaiting_runs, h.mem_wf⟩

/-- Memory may be replaced by a canonical one. -/
theorem State.Inv.of_mem_frame (h : s.Inv) (hframe : t = { s with mem := t.mem }) (hwf : Memory.wf s.blank t.mem) :
    t.Inv := by
  rw [hframe]
  exact ⟨h.index_le, h.pc_le, h.stack_le, h.pending_awaits, h.awaiting_runs, hwf⟩

theorem State.Inv.setPc (h : s.Inv) {w : Word} (hw : w.toNat ≤ 0x10FE) : (s.setPc w).Inv :=
  ⟨h.index_le, hw, h.stack_le, h.pending_awaits, h.awaiting_runs, h.mem_wf⟩

/-- From a PC that the fetch bound check passes, even a skip stays far below 0x10FE. -/
theorem State.Inv.skipIf (h : s.Inv) (hpc : s.pc.toNat + 1 ≤ 0xFFF) (taken : Bool) : (s.skipIf taken).Inv := by
  have hnext : (s.pc + 2#16).toNat ≤ 0x10FE := by bv_omega
  have hskip : (s.pc + 4#16).toNat ≤ 0x10FE := by bv_omega
  cases taken with
  | false => exact h.setPc hnext
  | true => exact h.setPc hskip

theorem State.Inv.advance (h : s.Inv) (hpc : s.pc.toNat + 1 ≤ 0xFFF) : s.advance.Inv := h.skipIf hpc false

theorem State.Inv.setIndex (h : s.Inv) {w : Word} (hw : w.toNat ≤ 0xFFF) : (s.setIndex w).Inv :=
  ⟨hw, h.pc_le, h.stack_le, h.pending_awaits, h.awaiting_runs, h.mem_wf⟩

theorem State.Inv.writeFlagged (h : s.Inv) (x : Nibble) (b : Byte) (c : Bool) : (s.writeFlagged x b c).Inv := by
  unfold State.writeFlagged
  split <;> exact h.of_frame rfl

theorem State.Inv.loadRegs (h : s.Inv) (x : Nibble) : (s.loadRegs x).Inv :=
  h.of_frame (by rw [loadRegs_frame])

theorem State.Inv.storeRegs (h : s.Inv) (x : Nibble) : (s.storeRegs x).Inv :=
  h.of_mem_frame (storeRegs_frame x) (storeRegs_wf x h.mem_wf)

theorem State.Inv.storeDigits (h : s.Inv) (b : Byte) : (s.storeDigits b).Inv :=
  h.of_mem_frame (storeDigits_frame b) (storeDigits_wf b h.mem_wf)

theorem State.Inv.writeBytes (h : s.Inv) (a : Addr) (bytes : List Byte) : (s.writeBytes a bytes).Inv :=
  h.of_mem_frame (writeBytes_frame bytes s a) (writeBytes_wf bytes s a h.mem_wf)

theorem State.Inv.push (h : s.Inv) {w : Word} (hw : w.toNat ≤ 0x1000) (hsp : s.sp.val < 16) : (s.push w hsp).Inv := by
  refine ⟨h.index_le, h.pc_le, fun j hj => ?_, h.pending_awaits, h.awaiting_runs, h.mem_wf⟩
  rw [push_stack, Vector.getElem_set]
  split
  · exact hw
  · exact h.stack_le j hj

/-- The bound of the stack entries is the bound of a popped PC. -/
theorem State.Inv.popPc (h : s.Inv) (hsp : s.sp.val ≠ 0) : (s.popPc hsp).Inv :=
  ⟨h.index_le, (h.stack_le _ _).trans (by decide), h.stack_le, h.pending_awaits, h.awaiting_runs, h.mem_wf⟩

/-- A fatal error is raised only outside a wait, so a halted core never waits. -/
theorem State.Inv.raise (h : s.Inv) (ha : s.awaitingKey = false) (e : FatalError) : (s.raise e).Inv :=
  ⟨h.index_le, h.pc_le, h.stack_le, h.pending_awaits, fun hwait => absurd (ha.symm.trans hwait) nofun, h.mem_wf⟩

theorem State.Inv.enterWait (h : s.Inv) (hs : s.status = .running) (x : Nibble) : (s.enterWait x).Inv :=
  ⟨h.index_le, h.pc_le, h.stack_le, fun _ => rfl, fun _ => hs, h.mem_wf⟩

theorem State.Inv.completeWait (h : s.Inv) (k : Nibble) : (s.completeWait k).Inv :=
  ⟨h.index_le, h.pc_le, h.stack_le, fun hp => absurd rfl hp, nofun, h.mem_wf⟩

/-- `setKey` captures a key only in a wait (R236). -/
theorem State.Inv.reportKey (h : s.Inv) (k : Nibble) (pressed : Bool) : (s.reportKey k pressed).Inv := by
  refine ⟨h.index_le, h.pc_le, h.stack_le, fun hp => ?_, h.awaiting_runs, h.mem_wf⟩
  rw [reportKey_pendingKey] at hp
  split at hp
  next hcaptured => exact hcaptured.2.1
  next => exact h.pending_awaits hp

theorem inv_construct (cfg : Config) (draws : Nat) : (State.construct cfg draws).Inv := by
  have hpc : (0x200#16).toNat ≤ 0x10FE := by decide
  refine ⟨Nat.zero_le 0xFFF, hpc, fun j hj => ?_, fun hp => absurd rfl hp, nofun, nil_wf⟩
  rw [stack_construct]
  exact Nat.zero_le 0x1000

/-- Memory apart, `reset()` gives what the invariants speak of the values `construct()` does (R301). -/
theorem State.Inv.resetVm (h : s.Inv) : s.resetVm.Inv :=
  have hfresh := (inv_construct s.cfg s.draws).of_frame (t := { s.resetVm with mem := [] }) rfl
  hfresh.of_mem_frame rfl (resetVm_wf h.mem_wf)

end InvLaws

/-! ### An instruction and a step keep them -/

section StepInv
variable {s t : State}

/-- NNN + V0, neither wrapped nor masked (R123, D2). -/
theorem toNat_indexedTarget (s : State) (nnn : Addr) :
    (s.indexedTarget nnn).toNat = nnn.toNat + (s.getV 0#4).toNat := by
  have hnnn := nnn.isLt
  have hv := (s.getV 0#4).isLt
  rw [State.indexedTarget, BitVec.toNat_add, toNat_absolute, BitVec.toNat_setWidth_of_le (by decide)]
  omega

theorem toNat_absolute_le (nnn : Addr) : (absolute nnn).toNat ≤ 0xFFF := by
  rw [toNat_absolute]
  exact Nat.le_of_lt_succ nnn.isLt

/-- The one place where the invariants are followed through the 34 arms of `exec`. -/
theorem exec_keeps_inv {i : Instr} (h : s.Inv) (hready : s.Ready) (hexec : exec i s = .next t) : t.Inv := by
  obtain ⟨hs, ha, hpc⟩ := hready
  cases i with
  | ldI nnn =>
    obtain rfl := Host.Outcome.next.inj hexec
    exact (h.setIndex (toNat_absolute_le nnn)).advance hpc
  | addI x =>
    obtain rfl := Host.Outcome.next.inj hexec
    exact (h.setIndex (by rw [toNat_indexPlus]; omega)).advance hpc
  | ldF x =>
    obtain rfl := Host.Outcome.next.inj hexec
    have hv := (s.getV x).isLt
    exact (h.setIndex (by rw [toNat_glyphAddr]; omega)).advance hpc
  | jp nnn =>
    obtain rfl := Host.Outcome.next.inj hexec
    exact h.setPc ((toNat_absolute_le nnn).trans (by decide))
  | jpV0 nnn =>
    obtain rfl := Host.Outcome.next.inj hexec
    have hnnn := nnn.isLt
    have hv := (s.getV 0#4).isLt
    exact h.setPc (by rw [toNat_indexedTarget]; omega)
  | call nnn =>
    obtain ⟨hsp, rfl⟩ | ⟨-, rfl⟩ := execCall_cases hexec
    · have hreturn : (s.pc + 2#16).toNat ≤ 0x1000 := by bv_omega
      exact (h.push hreturn hsp).setPc ((toNat_absolute_le nnn).trans (by decide))
    · exact h.raise ha _
  | ret =>
    obtain ⟨-, rfl⟩ | ⟨hsp, rfl⟩ := execRet_cases hexec
    · exact h.raise ha _
    · exact h.popPc hsp
  | seImm | sneImm | seReg | sneReg | skp | sknp =>
    obtain rfl := Host.Outcome.next.inj hexec
    exact h.skipIf hpc _
  | addReg | sub | shr | subn | shl =>
    obtain rfl := Host.Outcome.next.inj hexec
    exact (h.writeFlagged ..).advance (by rwa [writeFlagged_pc])
  | ldB x =>
    obtain rfl := Host.Outcome.next.inj hexec
    exact (h.storeDigits (s.getV x)).advance hpc
  | ldMemVx x =>
    obtain rfl := Host.Outcome.next.inj hexec
    exact (h.storeRegs x).advance (by rwa [storeRegs_pc])
  | ldVxMem x =>
    obtain rfl := Host.Outcome.next.inj hexec
    exact (h.loadRegs x).advance (by rwa [loadRegs_pc])
  | ldVxK x =>
    obtain rfl := Host.Outcome.next.inj hexec
    exact (h.enterWait hs x).advance hpc
  | _ =>
    obtain rfl := Host.Outcome.next.inj hexec
    exact (h.advance hpc).of_frame rfl

theorem step_keeps_inv (h : s.Inv) (hstep : step s = .next t) : t.Inv := by
  obtain ⟨-, rfl⟩ | ⟨-, rfl⟩ | ⟨-, -, k, -, rfl⟩ | ⟨-, ha, -, rfl⟩ | ⟨⟨-, -, hpc⟩, -, rfl⟩ | ⟨hready, i, -, hexec⟩ :=
    step_cases hstep
  · exact h
  · exact h
  · exact h.completeWait k
  · exact h.raise ha _
  · exact h.advance hpc
  · exact exec_keeps_inv h hready hexec

end StepInv

/-! ### The parameters and the draws (R36 (c), R182) -/

section OracleLaws
variable {s t : State}

/-- RND draws one byte; every other arm of `exec` carries the count of draws through, and every arm the parameters. -/
theorem exec_cfg_draws {i : Instr} (h : exec i s = .next t) :
    t.cfg = s.cfg ∧ (t.draws = s.draws ∨ (t.draws = s.draws + 1 ∧ ∃ x nn, i = .rnd x nn)) := by
  cases i with
  | rnd x nn =>
    obtain rfl := Host.Outcome.next.inj h
    exact ⟨rfl, .inr ⟨rfl, x, nn, rfl⟩⟩
  | addReg | sub | shr | subn | shl =>
    obtain rfl := Host.Outcome.next.inj h
    exact ⟨writeFlagged_cfg .., .inl (writeFlagged_draws ..)⟩
  | ldMemVx =>
    obtain rfl := Host.Outcome.next.inj h
    rw [storeRegs_frame]
    exact ⟨rfl, .inl rfl⟩
  | ldVxMem =>
    obtain rfl := Host.Outcome.next.inj h
    rw [loadRegs_frame]
    exact ⟨rfl, .inl rfl⟩
  | ret => obtain ⟨-, rfl⟩ | ⟨-, rfl⟩ := execRet_cases h <;> exact ⟨rfl, .inl rfl⟩
  | call => obtain ⟨-, rfl⟩ | ⟨-, rfl⟩ := execCall_cases h <;> exact ⟨rfl, .inl rfl⟩
  | _ =>
    obtain rfl := Host.Outcome.next.inj h
    exact ⟨rfl, .inl rfl⟩

theorem step_cfg_draws (h : step s = .next t) :
    t.cfg = s.cfg ∧
      (t.draws = s.draws ∨ (t.draws = s.draws + 1 ∧ ∃ x nn, decode s.fetchWord = .ok (.rnd x nn))) := by
  obtain ⟨-, rfl⟩ | ⟨-, rfl⟩ | ⟨-, -, k, -, rfl⟩ | ⟨-, -, -, rfl⟩ | ⟨-, -, rfl⟩ | ⟨-, i, hi, hexec⟩ := step_cases h
  case inr.inr.inr.inr.inr =>
    obtain ⟨hcfg, hkept | ⟨hdrawn, x, nn, rfl⟩⟩ := exec_cfg_draws hexec
    · exact ⟨hcfg, .inl hkept⟩
    · exact ⟨hcfg, .inr ⟨hdrawn, x, nn, hi⟩⟩
  all_goals exact ⟨rfl, .inl rfl⟩

end OracleLaws

/-! ### What a host operation can leave (R283) -/

/-- The states `t` that some host operation can leave from `s`. -/
inductive HostEffect (s : State) : State → Prop where
  | construct : HostEffect s (State.construct s.cfg s.draws)
  | load (bytes : List Byte) : HostEffect s (s.writeBytes 0x200#12 bytes)
  | reset : HostEffect s s.resetVm
  | step {t : State} (h : step s = .next t) : HostEffect s t
  | tick {t : State} (kept : t.TimeKept) (frame : t = { s with tAcc := t.tAcc, dt := t.dt, st := t.st }) :
      HostEffect s t
  | setKey (k : Nibble) (pressed : Bool) : HostEffect s (s.reportKey k pressed)
  | consume : HostEffect s { s with dirty := false }
  | nothing : HostEffect s s

section HostLaws
variable {s t : State} {r : HostResult}

theorem hostEffect_of_opLoad {bytes : List Byte} (h : opLoad bytes s = (r, t)) : HostEffect s t := by
  unfold opLoad at h
  split at h <;> cases h
  · exact .nothing
  · exact .load bytes

theorem hostEffect_of_opStep (h : opStep s = .next (r, t)) : HostEffect s t := by
  obtain ⟨u, hu⟩ := step_next s
  cases (opStep_of_step hu).symm.trans h
  exact .step hu

theorem hostEffect_of_opSetKey {k : Nat} {pressed : Bool} (h : opSetKey k pressed s = .next (r, t)) :
    HostEffect s t := by
  unfold opSetKey at h
  split at h <;> cases h
  exact .setKey _ pressed

/-- At most one period is left after `tickTimers` (R41 (h), R275). -/
theorem hostEffect_opTickTimers (ms : Nat) (s : State) : HostEffect s (opTickTimers ms s).2 := by
  obtain ⟨hacc, -, -, hframe⟩ := opTickTimers_spec ms s
  exact .tick (by rw [State.TimeKept, hacc]; omega) hframe

theorem transact_hostEffect {op : HostOp} (h : transact op s = .next (r, t)) : HostEffect s t := by
  cases op with
  | load => exact hostEffect_of_opLoad (Host.Outcome.next.inj h)
  | step => exact hostEffect_of_opStep h
  | setKey => exact hostEffect_of_opSetKey h
  | tickTimers ms =>
    cases h
    exact hostEffect_opTickTimers ms s
  | construct =>
    cases h
    exact .construct
  | reset =>
    cases h
    exact .reset
  | consumeFramebuffer =>
    cases h
    exact .consume
  | isFramebufferDirty | soundTimerActive =>
    cases h
    exact .nothing

theorem HostEffect.keeps_inv (effect : HostEffect s t) (h : s.Inv) : t.Inv := by
  cases effect with
  | construct => exact inv_construct s.cfg s.draws
  | load bytes => exact h.writeBytes _ bytes
  | reset => exact h.resetVm
  | step hstep => exact step_keeps_inv h hstep
  | tick _ frame => exact h.of_frame (by rw [frame])
  | setKey k pressed => exact h.reportKey k pressed
  | consume => exact h.of_frame rfl
  | nothing => exact h

/-- Only `tickTimers` accumulates time, and it leaves at most one period (R275, D17, D18). -/
theorem HostEffect.keeps_timeKept (effect : HostEffect s t) (h : s.TimeKept) : t.TimeKept := by
  cases effect with
  | construct | reset => exact Nat.zero_le 50
  | load => rwa [State.TimeKept, writeBytes_frame]
  | step hstep =>
    obtain ⟨hacc, -, -⟩ := stepNeverTicks s t hstep
    rwa [State.TimeKept, hacc]
  | tick kept => exact kept
  | setKey | consume | nothing => exact h

theorem HostEffect.cfg_eq (effect : HostEffect s t) : t.cfg = s.cfg := by
  cases effect with
  | load => rw [writeBytes_frame]
  | step hstep => exact (step_cfg_draws hstep).1
  | tick _ frame => rw [frame]
  | construct | reset | setKey | consume | nothing => rfl

/-- The induction over the operations of a host, for the invariants and the time kept. -/
theorem State.Reachable.inv_timeKept (h : s.Reachable) : s.Inv ∧ s.TimeKept := by
  induction h with
  | construct cfg draws => exact ⟨inv_construct cfg draws, Nat.zero_le 50⟩
  | transact _ _ _ _ _ htransact ih =>
    have effect := transact_hostEffect htransact
    exact ⟨effect.keeps_inv ih.1, effect.keeps_timeKept ih.2⟩

end HostLaws

/-! ### The completion of a key wait (R237) -/

section CompleteWaitLaws
variable {s : State} {k : Nibble}

theorem step_of_pendingKey (hs : s.status = .running) (ha : s.awaitingKey = true) (hp : s.pendingKey = some k) :
    step s = .next (s.completeWait k) := by
  rw [step, nextAction_of_pendingKey hs ha hp]

theorem getV_completeWait (r : Nibble) :
    (s.completeWait k).getV r = if r = s.awaitReg then k.setWidth 8 else s.getV r := getV_setV _ _ _

theorem keyBit_completeWait_same : (s.completeWait k).keyBit k = false := keyBit_setKeyBit_same k false

theorem keyBit_completeWait_other {j : Nibble} (h : j ≠ k) : (s.completeWait k).keyBit j = s.keyBit j :=
  keyBit_setKeyBit_other (mt BitVec.eq_of_toNat_eq h) false

end CompleteWaitLaws

/-! ### The statements -/

/-- Settles O50: each operation that an instruction or a step is made of keeps the invariants. -/
theorem stepKeepsInv : Obligations.StepKeepsInv := fun _ _ => step_keeps_inv

/-- Settles O51, from what a host operation can leave. -/
theorem hostOperationKeepsInv : Obligations.HostOperationKeepsInv :=
  fun _ _ _ _ hinv h => (transact_hostEffect h).keeps_inv hinv

/-- Settles O11: the completing step is `completeWait`, which ends the wait of a running core. -/
theorem keyWaitCompletes : Obligations.KeyWaitCompletes := by
  intro s k hs ha hp
  have hreport : stepReport s (s.completeWait k) = .resumed k :=
    stepReport_of_resume hs (nextAction_of_pendingKey hs ha hp)
  refine ⟨s.completeWait k, ?_, ?_, fun r hr => ?_, keyBit_completeWait_same, fun _ => keyBit_completeWait_other, rfl,
    fun _ => rfl, fun hpc => ⟨hs, rfl, hpc⟩⟩
  · rw [opStep_of_step (step_of_pendingKey hs ha hp), hreport]
  · rw [getV_completeWait, if_pos rfl, BitVec.toNat_setWidth_of_le (by decide)]
  · rw [getV_completeWait, if_neg hr]

/-- Settles O14: every action answers a next state. -/
theorem everyStepAnswers : Obligations.EveryStepAnswers := step_next

/-- Settles O20, from the value of the target: the sum of 12 bits and 8 bits fits in PC. -/
theorem indexedJumpAddsV0 : Obligations.IndexedJumpAddsV0 :=
  fun s nnn => ⟨_, rfl, toNat_indexedTarget s nnn, fun _ => rfl, rfl⟩

/-- Settles O48, from the values of a fresh machine's memory, registers, stack, latch and pixels. -/
theorem constructBuildsZeroedState : Obligations.ConstructBuildsZeroedState := by
  intro s
  refine ⟨State.construct s.cfg s.draws, rfl, fun a h => ?_, fun a h => ?_, getV_construct _ _, rfl, rfl, rfl,
    fun _ => stack_construct _ _, rfl, rfl, rfl, keyBit_construct _ _, rfl, rfl, rfl, pixel_clearedFb, rfl, rfl, rfl⟩
  · rw [readByte_construct, blank_of_lt _ h]
    rfl
  · rw [readByte_construct, blank_of_ge _ h]

/-- Settles O52, by induction over the host operations; the bounds of SP and of the timers are those of their types. -/
theorem reachableStatesKeepInv : Obligations.ReachableStatesKeepInv := by
  intro s hreach
  obtain ⟨hinv, hkept⟩ := hreach.inv_timeKept
  exact ⟨hinv, Nat.le_of_lt_succ s.sp.isLt, Nat.le_of_lt_succ s.dt.isLt, Nat.le_of_lt_succ s.st.isLt, hkept⟩

/-- Settles O58, from what a host operation can leave and which instruction draws. -/
theorem parametersFixedAndDrawsCounted : Obligations.ParametersFixedAndDrawsCounted :=
  ⟨fun _ _ _ _ h => (transact_hostEffect h).cfg_eq, fun _ _ h => (step_cfg_draws h).2⟩

/-- Settles O9: the first check of the step answers for a halted core. -/
theorem haltedStepInert : Obligations.HaltedStepInert := fun _ _ => opStep_of_halted

/-- Settles O49: `State.reset` is the machine constructed with the default parameters. -/
theorem invAtReset : Obligations.InvAtReset :=
  ⟨inv_construct _ _, Nat.zero_le 50, fun cfg draws => ⟨inv_construct cfg draws, Nat.zero_le 50⟩⟩

end Sys2Proof.Machine
